-- ==== Sys2Proof/Word.lean ====
section
/-! DEFINITION. The machine's word, byte and register-index types (spec/00_scope.md R10, R12; spec/10_state.md R20). -/

namespace Sys2Proof

/-- A word: a 16-bit unsigned value (R10, R12). -/
abbrev Word := BitVec 16

/-- A byte of the program image (spec/20_memory.md R56). -/
abbrev Byte := BitVec 8

/-- A register index 0..7 (spec/10_state.md R20). -/
abbrev Reg := Fin 8

end Sys2Proof
end

