-- ==== Sys2Proof/Syntax.lean ====
section
/-! DEFINITION. The instructions: one constructor per row of spec/opcode_table.json (spec/30_encoding.md R80), in the
table's order, with decoded operands in the sum form of R78. -/

namespace Sys2Proof

/-- A decoded general operand (`val`): a literal or a register reference (R74, R78). A literal is the operand word
itself (R77). -/
inductive Operand where
  | literal (w : Word)
  | register (r : Reg)
  deriving DecidableEq, Repr

/-- The 22 instructions (R80). A destination (`dst`) is a register index (R75); every other operand is general. -/
inductive Instr where
  /-- 0 `halt` -/
  | halt
  /-- 1 `set a, b` -/
  | set (a : Reg) (b : Operand)
  /-- 2 `push a` -/
  | push (a : Operand)
  /-- 3 `pop a` -/
  | pop (a : Reg)
  /-- 4 `eq a, b, c` -/
  | eq (a : Reg) (b c : Operand)
  /-- 5 `gt a, b, c` -/
  | gt (a : Reg) (b c : Operand)
  /-- 6 `jmp a` -/
  | jmp (a : Operand)
  /-- 7 `jt a, b` -/
  | jt (a b : Operand)
  /-- 8 `jf a, b` -/
  | jf (a b : Operand)
  /-- 9 `add a, b, c` -/
  | add (a : Reg) (b c : Operand)
  /-- 10 `mult a, b, c` -/
  | mult (a : Reg) (b c : Operand)
  /-- 11 `mod a, b, c` -/
  | mod (a : Reg) (b c : Operand)
  /-- 12 `and a, b, c` -/
  | and (a : Reg) (b c : Operand)
  /-- 13 `or a, b, c` -/
  | or (a : Reg) (b c : Operand)
  /-- 14 `not a, b` -/
  | not (a : Reg) (b : Operand)
  /-- 15 `rmem a, b` -/
  | rmem (a : Reg) (b : Operand)
  /-- 16 `wmem a, b` -/
  | wmem (a b : Operand)
  /-- 17 `call a` -/
  | call (a : Operand)
  /-- 18 `ret` -/
  | ret
  /-- 19 `out a` -/
  | out (a : Operand)
  /-- 20 `in a` (the bare word is reserved in Lean) -/
  | inChar (a : Reg)
  /-- 21 `noop` -/
  | noop
  deriving DecidableEq, Repr

end Sys2Proof
end

