-- ==== Sys2Proof/WellFormed.lean ====
section
/-! DEFINITION. Which terms of `Instr` an encoding can stand for: every literal lies in 0..32767 (spec/30_encoding.md
R74, R76, R77). Register indices are bounded by their type. -/

namespace Sys2Proof

/-- A general operand some raw word decodes to (R76). -/
def Operand.wf : Operand → Bool
  | .literal w => decide (w.toNat < 32768)
  | .register _ => true

/-- An instruction some words decode to: each general operand is well formed. -/
def Instr.wf : Instr → Bool
  | .halt => true
  | .set _ b => b.wf
  | .push a => a.wf
  | .pop _ => true
  | .eq _ b c => b.wf && c.wf
  | .gt _ b c => b.wf && c.wf
  | .jmp a => a.wf
  | .jt a b => a.wf && b.wf
  | .jf a b => a.wf && b.wf
  | .add _ b c => b.wf && c.wf
  | .mult _ b c => b.wf && c.wf
  | .mod _ b c => b.wf && c.wf
  | .and _ b c => b.wf && c.wf
  | .or _ b c => b.wf && c.wf
  | .not _ b => b.wf
  | .rmem _ b => b.wf
  | .wmem a b => a.wf && b.wf
  | .call a => a.wf
  | .ret => true
  | .out a => a.wf
  | .inChar _ => true
  | .noop => true

/-- The instruction is well formed. -/
abbrev WellFormed (i : Instr) : Prop := i.wf = true

end Sys2Proof
end

