-- ==== Sys2Proof/Decode.lean ====
section
/-! DEFINITION. The decoder and the encoder of spec/30_encoding.md, and the byte order of the image
(spec/20_memory.md R56, spec/70_reset_and_hazards.md R245). The decoder is total: it answers an instruction and the
words after it, or the first failing check in fetch order (R84; spec/60_exceptions.md R203). -/

namespace Sys2Proof

/-- A word from its two image bytes, the earlier byte low: `b[2k] + 256 * b[2k+1]` (R56, R245). -/
def wordOfBytes (lo hi : Byte) : Word := hi ++ lo

/-- Bits 7:0 of a word: its earlier image byte (R245). -/
def loByte (w : Word) : Byte := w.extractLsb' 0 8

/-- Bits 15:8 of a word: its later image byte (R245). -/
def hiByte (w : Word) : Byte := w.extractLsb' 8 8

/-- The image words of a byte stream (R245). A last odd byte forms no word. -/
def wordsOfBytes : List Byte → List Word
  | lo :: hi :: bs => wordOfBytes lo hi :: wordsOfBytes bs
  | _ => []

/-- The image bytes of a sequence of words (R245). -/
def bytesOfWords : List Word → List Byte
  | [] => []
  | w :: ws => loByte w :: hiByte w :: bytesOfWords ws

/-- Why no instruction could be decoded (R83, R84). -/
inductive DecodeError where
  /-- word `k` of the instruction lies beyond the words there are (spec/20_memory.md R55) -/
  | missing (k : Nat)
  /-- the opcode word is in 22..65535 -/
  | unknownOpcode (w : Word)
  /-- a general operand word is in 32776..65535 -/
  | invalidOperand (w : Word)
  /-- a destination operand word lies outside 32768..32775 -/
  | invalidDestination (w : Word)
  deriving DecidableEq, Repr

/-- The register a register-reference word names: `w[2:0]`, which is `w - 32768` for 32768..32775 (R76). -/
def regOfWord (w : Word) : Reg := ⟨w.toNat % 8, Nat.mod_lt _ (by decide)⟩

/-- General decode of a raw operand word, without the register read (R74, R78). -/
def decodeVal (w : Word) : Except DecodeError Operand :=
  if w.toNat ≤ 32767 then .ok (.literal w)
  else if w.toNat ≤ 32775 then .ok (.register (regOfWord w))
  else .error (.invalidOperand w)

/-- Destination decode of a raw operand word (R75). -/
def decodeDst (w : Word) : Except DecodeError Reg :=
  if 32768 ≤ w.toNat ∧ w.toNat ≤ 32775 then .ok (regOfWord w)
  else .error (.invalidDestination w)

/-- Fetch operand word `k`, then general-decode it (spec/40_dispatcher.md R100). -/
def takeVal (k : Nat) : List Word → Except DecodeError (Operand × List Word)
  | [] => .error (.missing k)
  | w :: ws =>
    match decodeVal w with
    | .ok o => .ok (o, ws)
    | .error e => .error e

/-- Fetch operand word `k`, then destination-decode it (spec/40_dispatcher.md R100). -/
def takeDst (k : Nat) : List Word → Except DecodeError (Reg × List Word)
  | [] => .error (.missing k)
  | w :: ws =>
    match decodeDst w with
    | .ok r => .ok (r, ws)
    | .error e => .error e

/-- Format F1V: one general operand (R81). -/
def decodeF1V (mk : Operand → Instr) (ws : List Word) : Except DecodeError (Instr × List Word) :=
  match takeVal 1 ws with
  | .ok (a, ws) => .ok (mk a, ws)
  | .error e => .error e

/-- Format F1D: one destination (R81). -/
def decodeF1D (mk : Reg → Instr) (ws : List Word) : Except DecodeError (Instr × List Word) :=
  match takeDst 1 ws with
  | .ok (a, ws) => .ok (mk a, ws)
  | .error e => .error e

/-- Format F2DV: a destination and a general operand (R81). -/
def decodeF2DV (mk : Reg → Operand → Instr) (ws : List Word) : Except DecodeError (Instr × List Word) :=
  match takeDst 1 ws with
  | .error e => .error e
  | .ok (a, ws) =>
    match takeVal 2 ws with
    | .error e => .error e
    | .ok (b, ws) => .ok (mk a b, ws)

/-- Format F2VV: two general operands (R81). -/
def decodeF2VV (mk : Operand → Operand → Instr) (ws : List Word) :
    Except DecodeError (Instr × List Word) :=
  match takeVal 1 ws with
  | .error e => .error e
  | .ok (a, ws) =>
    match takeVal 2 ws with
    | .error e => .error e
    | .ok (b, ws) => .ok (mk a b, ws)

/-- Format F3DVV: a destination and two general operands (R81). -/
def decodeF3DVV (mk : Reg → Operand → Operand → Instr) (ws : List Word) :
    Except DecodeError (Instr × List Word) :=
  match takeDst 1 ws with
  | .error e => .error e
  | .ok (a, ws) =>
    match takeVal 2 ws with
    | .error e => .error e
    | .ok (b, ws) =>
      match takeVal 3 ws with
      | .error e => .error e
      | .ok (c, ws) => .ok (mk a b c, ws)

/-- The opcode map (R80): the opcode word selects the handler and the format. Every other opcode word is unknown
(R71, R79, R83). -/
def decodeOp (op : Word) (ws : List Word) : Except DecodeError (Instr × List Word) :=
  match op.toNat with
  | 0 => .ok (.halt, ws)
  | 1 => decodeF2DV .set ws
  | 2 => decodeF1V .push ws
  | 3 => decodeF1D .pop ws
  | 4 => decodeF3DVV .eq ws
  | 5 => decodeF3DVV .gt ws
  | 6 => decodeF1V .jmp ws
  | 7 => decodeF2VV .jt ws
  | 8 => decodeF2VV .jf ws
  | 9 => decodeF3DVV .add ws
  | 10 => decodeF3DVV .mult ws
  | 11 => decodeF3DVV .mod ws
  | 12 => decodeF3DVV .and ws
  | 13 => decodeF3DVV .or ws
  | 14 => decodeF2DV .not ws
  | 15 => decodeF2DV .rmem ws
  | 16 => decodeF2VV .wmem ws
  | 17 => decodeF1V .call ws
  | 18 => .ok (.ret, ws)
  | 19 => decodeF1V .out ws
  | 20 => decodeF1D .inChar ws
  | 21 => .ok (.noop, ws)
  | _ => .error (.unknownOpcode op)

/-- Decode one instruction from the words that start at its opcode word (R84; the order of checks is
spec/60_exceptions.md R203). -/
def decodeWords : List Word → Except DecodeError (Instr × List Word)
  | [] => .error (.missing 0)
  | op :: ws => decodeOp op ws

/-- Decode one instruction from image bytes (R56, R84). -/
def decodeBytes (bs : List Byte) : Except DecodeError (Instr × List Word) :=
  decodeWords (wordsOfBytes bs)

/-- The raw word of a register reference: 32768 + i (R76, R86). -/
def Reg.encode (r : Reg) : Word := BitVec.ofNat 16 (32768 + r.val)

/-- The raw word of a general operand: a literal is itself (R76, R77, R86). -/
def Operand.encode : Operand → Word
  | .literal w => w
  | .register r => Reg.encode r

/-- The opcode word of an instruction (R80). -/
def Instr.opcode : Instr → Word
  | .halt => 0
  | .set _ _ => 1
  | .push _ => 2
  | .pop _ => 3
  | .eq _ _ _ => 4
  | .gt _ _ _ => 5
  | .jmp _ => 6
  | .jt _ _ => 7
  | .jf _ _ => 8
  | .add _ _ _ => 9
  | .mult _ _ _ => 10
  | .mod _ _ _ => 11
  | .and _ _ _ => 12
  | .or _ _ _ => 13
  | .not _ _ => 14
  | .rmem _ _ => 15
  | .wmem _ _ => 16
  | .call _ => 17
  | .ret => 18
  | .out _ => 19
  | .inChar _ => 20
  | .noop => 21

/-- The raw operand words of an instruction, in operand order (R80, R81). -/
def Instr.operandWords : Instr → List Word
  | .halt => []
  | .set a b => [Reg.encode a, b.encode]
  | .push a => [a.encode]
  | .pop a => [Reg.encode a]
  | .eq a b c => [Reg.encode a, b.encode, c.encode]
  | .gt a b c => [Reg.encode a, b.encode, c.encode]
  | .jmp a => [a.encode]
  | .jt a b => [a.encode, b.encode]
  | .jf a b => [a.encode, b.encode]
  | .add a b c => [Reg.encode a, b.encode, c.encode]
  | .mult a b c => [Reg.encode a, b.encode, c.encode]
  | .mod a b c => [Reg.encode a, b.encode, c.encode]
  | .and a b c => [Reg.encode a, b.encode, c.encode]
  | .or a b c => [Reg.encode a, b.encode, c.encode]
  | .not a b => [Reg.encode a, b.encode]
  | .rmem a b => [Reg.encode a, b.encode]
  | .wmem a b => [a.encode, b.encode]
  | .call a => [a.encode]
  | .ret => []
  | .out a => [a.encode]
  | .inChar a => [Reg.encode a]
  | .noop => []

/-- The words of an instruction: its opcode word, then its operand words (R70, R80, R81). -/
def encode (i : Instr) : List Word := i.opcode :: i.operandWords

/-- The length of an instruction in words, by the table of R80 (R82). -/
def Instr.length : Instr → Nat
  | .halt => 1
  | .set _ _ => 3
  | .push _ => 2
  | .pop _ => 2
  | .eq _ _ _ => 4
  | .gt _ _ _ => 4
  | .jmp _ => 2
  | .jt _ _ => 3
  | .jf _ _ => 3
  | .add _ _ _ => 4
  | .mult _ _ _ => 4
  | .mod _ _ _ => 4
  | .and _ _ _ => 4
  | .or _ _ _ => 4
  | .not _ _ => 3
  | .rmem _ _ => 3
  | .wmem _ _ => 3
  | .call _ => 2
  | .ret => 1
  | .out _ => 2
  | .inChar _ => 2
  | .noop => 1

/-- The longest instruction, in words (R70). -/
def maxLength : Nat := 4

/-- The words of an instruction whose bits are `w`, numbered as spec/opcode_table.json numbers them: word k is bits
16k+15..16k, and every bit above `nbits` is 0, up to the longest instruction. -/
def tableWords (nbits w : Nat) : List Word :=
  (List.range maxLength).map fun k => BitVec.ofNat 16 ((w % 2 ^ nbits) / 2 ^ (16 * k))

/-- What the decoder reads from an instruction whose bits are `w`, laid out as image bytes. -/
def decodeTableWord (nbits w : Nat) : Option Instr :=
  match decodeBytes (bytesOfWords (tableWords nbits w)) with
  | .ok (i, _) => some i
  | .error _ => none

end Sys2Proof
end

