-- ==== Sys2Proof/Config.lean ====
section
/-! DEFINITION. What the spec leaves to the implementation: the two open parameters of spec/00_scope.md R11, and the one
value the spec leaves free (spec/93_implementation_defined.md I15). -/

namespace Sys2Proof

/-- The parameters of one machine, fixed while it runs (R11). They are plain data carried by the state, so that a
statement about every state is a statement about every value of the parameters (log 2). -/
structure Config where
  /-- MEM_LEN: the number of addressable words, fixed by the load (spec/10_state.md R38). -/
  memLen : Nat
  /-- STACK_DEPTH: the stack's capacity in entries; `none` is unbounded (spec/10_state.md R31, decision D7). -/
  stackDepth : Option Nat
  deriving DecidableEq, Repr

/-- FREE VALUE (log 5): the bytes memory holds after a failed load of the given stream. The spec allows any value
("What memory holds after a failed load is unobservable", spec/70_reset_and_hazards.md R247, 93 I15), so nothing
constrains it and no proof can see it. -/
opaque Config.failedLoadImage : List Byte → List Byte

end Sys2Proof
end

