-- ==== Sys2Proof/Machine/State.lean ====
section
/-! DEFINITION. The state of the machine as plain data: every row of spec/10_state.md R41, the host-side sequences of
R42 and spec/45_io.md R183, and the two parameters of spec/00_scope.md R11. Its reset value is spec/10_state.md R41 and
spec/70_reset_and_hazards.md R246, for the empty image (log 3). -/

namespace Sys2Proof.Machine

/-- RUN_STATE (spec/10_state.md R33). The two reserved codes are never taken, so no constructor stands for them
(spec/93_implementation_defined.md I16). -/
inductive RunState where
  /-- no image loaded yet -/
  | idle
  /-- steps are being taken -/
  | running
  /-- the last step held at an `in` (spec/45_io.md R185) -/
  | waitingInput
  /-- clean stop by `halt` -/
  | halted
  /-- clean stop by `pop` or `ret` on an empty stack -/
  | stackEnd
  /-- stopped by a fault, a failed load among them -/
  | faulted
  deriving DecidableEq, Repr

/-- FAULT_CODE: the fault reasons of spec/60_exceptions.md R200. The reserved codes are never raised (I16). -/
inductive FaultCode where
  | none
  | loadOddLength
  | loadReadFailure
  | loadImageTooLarge
  | invalidOperand
  | invalidDestination
  | unknownOpcode
  | inputExhausted
  | memoryOutOfBounds
  | divideByZero
  | stackOverflow
  | storedValueOutOfRange
  deriving DecidableEq, Repr

/-- Memory as cells of one byte in canonical form: keys strictly rising, no cell equal to what an unlisted key reads
as. The word at address a is the bytes at keys 2a and 2a+1 (log 1). -/
abbrev Memory := List Host.Cell

/-- The state (spec/10_state.md R41, R42). -/
structure State where
  /-- x[0]..x[7] (R20) -/
  regs : Vector Word 8
  /-- the program counter; between steps, the address of the next opcode word (R26) -/
  pc : Word
  /-- the word stack, bottom to top (R31); `depth` is its length -/
  stack : List Word
  /-- the word memory (R38) -/
  mem : Memory
  /-- RUN_STATE (R33) -/
  runState : RunState
  /-- FAULT_CODE (R34) -/
  faultCode : FaultCode
  /-- FAULT_PC (R35) -/
  faultPc : Word
  /-- FAULT_WORD (R36) -/
  faultWord : Word
  /-- the values handed to OUT, oldest first (R41; spec/45_io.md R182) -/
  output : List Word
  /-- `buf`: the code points delivered and not yet consumed, next first (spec/45_io.md R183) -/
  inBuf : List Nat
  /-- `closed` (spec/45_io.md R183) -/
  inClosed : Bool
  /-- the code points consumed from IN, oldest first (R42) -/
  inConsumed : List Nat
  /-- the parameters MEM_LEN and STACK_DEPTH (spec/00_scope.md R11) -/
  cfg : Config
  deriving DecidableEq, Repr

/-- Why a step answers no next state. A fault of spec/60_exceptions.md R200 is not here: the spec gives the state it
leaves, so it is a next state (log 7). -/
inductive Fault where
  /-- Raised by `step` in a run state in which no step is enabled (spec/40_dispatcher.md R101). Safe: the model stops
  where the spec says no step is taken (log 6). -/
  | noStepEnabled (r : RunState)
  deriving DecidableEq, Repr

/-- What the model has no meaning for. -/
inductive Refusal where
  /-- An arm of `exec` that has no meaning yet; no arm raises it in this model. Safe. -/
  | notModelled (mnemonic : String)
  /-- Raised by `load` outside IDLE: the image is handed over before the first step (spec/00_scope.md R9). Safe. -/
  | loadAfterStart (r : RunState)
  /-- Raised by `load` for a MEM_LEN outside L..32768 (spec/00_scope.md R11). Safe. -/
  | memLenOutOfRange (n : Nat)
  /-- Raised by `deliverLine` and `closeInput` for an input outside the host's contract (spec/45_io.md R184; claims say
  nothing of such a host, decisions D13 and D21). Safe. -/
  | hostBreaksContract
  deriving DecidableEq, Repr

/-- The state right after reset (spec/10_state.md R41, spec/70_reset_and_hazards.md R246), for the empty image with the
default parameters: MEM_LEN = L = 0, STACK_DEPTH unbounded (log 3). -/
def State.reset : State where
  regs := Vector.replicate 8 0
  pc := 0
  stack := []
  mem := []
  runState := .running
  faultCode := .none
  faultPc := 0
  faultWord := 0
  output := []
  inBuf := []
  inClosed := false
  inConsumed := []
  cfg := { memLen := 0, stackDepth := none }

end Sys2Proof.Machine
end

