-- ==== Sys2Proof/Machine/Ops.lean ====
section
/-! DEFINITION. The named operations over memory, registers, the stack and the ports (spec/00_scope.md R13), the four
ends of a step (spec/40_dispatcher.md R106 to R111), and the fetch and decode phases (R100). A fault is taken by ONE
operation, `State.takeFault`; there is no return from a fault (spec/60_exceptions.md R204, R206). -/

namespace Sys2Proof.Machine

/-! ### Memory -/

/-- What an unlisted byte reads as: 0, the spec's own reset content of every memory word the image does not fill
(spec/10_state.md R41). -/
def Memory.unlisted : Byte := 0

/-- The canonical form: keys strictly rising, no cell equal to what an unlisted key reads as. -/
abbrev Memory.wf (m : Memory) : Prop :=
  m.Pairwise (fun c d => c.1 < d.1) ∧ ∀ c ∈ m, c.2 ≠ Memory.unlisted

/-- The byte at key `a`. -/
def Memory.readByte : Memory → Nat → Byte
  | [], _ => Memory.unlisted
  | (k, x) :: m, a => if k = a then x else Memory.readByte m a

/-- Put a cell in front, unless it holds what an unlisted key reads as. -/
def Memory.consCell (a : Nat) (v : Byte) (m : Memory) : Memory :=
  if v = Memory.unlisted then m else (a, v) :: m

/-- Write the byte at key `a`, keeping the canonical form. -/
def Memory.writeByte : Memory → Nat → Byte → Memory
  | [], a, v => Memory.consCell a v []
  | (k, x) :: m, a, v =>
    if a < k then Memory.consCell a v ((k, x) :: m)
    else if a = k then Memory.consCell a v m
    else (k, x) :: Memory.writeByte m a v

/-- The word at address `a`, its low byte at the lower key (spec/20_memory.md R56). -/
def Memory.readWord (m : Memory) (a : Nat) : Word :=
  wordOfBytes (m.readByte (2 * a)) (m.readByte (2 * a + 1))

/-- Write the word at address `a`. -/
def Memory.writeWord (m : Memory) (a : Nat) (w : Word) : Memory :=
  (m.writeByte (2 * a) (loByte w)).writeByte (2 * a + 1) (hiByte w)

/-- Write words at consecutive addresses from `a`. -/
def Memory.writeWords (m : Memory) (a : Nat) : List Word → Memory
  | [] => m
  | w :: ws => Memory.writeWords (m.writeWord a w) (a + 1) ws

/-- The memory that holds the given bytes from key `a` on and nothing else
(spec/70_reset_and_hazards.md R245). -/
def Memory.ofBytes (a : Nat) : List Byte → Memory
  | [] => []
  | b :: bs => Memory.consCell a b (Memory.ofBytes (a + 1) bs)

/-- The address exists: it is below MEM_LEN (spec/20_memory.md R54, R55, R60). -/
def State.inMemory (s : State) (a : Nat) : Bool := decide (a < s.cfg.memLen)

/-- `MemRead(a, 1)` (spec/20_memory.md R51). -/
def State.memRead (s : State) (a : Nat) : Word := s.mem.readWord a

/-- `MemWrite(a, 1, v)` (spec/20_memory.md R51). -/
def State.memWrite (s : State) (a : Nat) (w : Word) : State := { s with mem := s.mem.writeWord a w }

/-! ### Registers, stack and ports -/

/-- Read register `r` (spec/10_state.md R20). -/
def State.reg (s : State) (r : Reg) : Word := s.regs[r]

/-- Write register `r` (spec/10_state.md R20); the range check is `State.storeReg`. -/
def State.setReg (s : State) (r : Reg) (v : Word) : State := { s with regs := s.regs.set r.val v r.isLt }

/-- `depth = STACK_DEPTH`; never when it is unbounded (spec/10_state.md R31). -/
def State.stackFull (s : State) : Bool :=
  match s.cfg.stackDepth with
  | none => false
  | some d => decide (s.stack.length = d)

/-- `Push(v)`, after its overflow check (spec/10_state.md R31). -/
def State.push (s : State) (v : Word) : State := { s with stack := s.stack ++ [v] }

/-- `Pop()`: none is EMPTY (spec/10_state.md R31). -/
def State.pop (s : State) : Option (Word × State) :=
  match s.stack.getLast? with
  | none => none
  | some v => some (v, { s with stack := s.stack.dropLast })

/-- `OutPort(v)`: never refused, never waits (spec/45_io.md R181). -/
def State.outPort (s : State) (v : Word) : State := { s with output := s.output ++ [v] }

/-- The answers of the IN port (spec/45_io.md R183). -/
inductive InAnswer where
  | char (c : Nat)
  | pending
  | closed
  deriving DecidableEq, Repr

/-- `InPort()`: a character is consumed as it is answered (spec/45_io.md R183). -/
def State.inPort (s : State) : InAnswer × State :=
  match s.inBuf with
  | c :: cs => (.char c, { s with inBuf := cs, inConsumed := s.inConsumed ++ [c] })
  | [] => if s.inClosed then (.closed, s) else (.pending, s)

/-! ### The ends of a step -/

/-- A step is enabled (spec/40_dispatcher.md R101). -/
def State.enabled (s : State) : Bool :=
  match s.runState with
  | .running | .waitingInput => true
  | .idle | .halted | .stackEnd | .faulted => false

/-- `raise Fault(reason, word)` (spec/40_dispatcher.md R107): the record is written, `pc` is the step's a0 (the meanings
run with `pc` still at a0), and nothing else changes. -/
def State.takeFault (s : State) (reason : FaultCode) (word : Word) : State :=
  { s with runState := .faulted, faultCode := reason, faultPc := s.pc, faultWord := word }

/-- `hold` (spec/40_dispatcher.md R110): `pc` is the step's a0. -/
def State.hold (s : State) : State := { s with runState := .waitingInput }

/-- The address after an instruction of `n` words (spec/10_state.md R27). -/
def State.pcAfter (s : State) (n : Nat) : Word := s.pc + BitVec.ofNat 16 n

/-- `terminate(outcome)` by an instruction of `n` words: `pc` keeps its post-decode value
(spec/40_dispatcher.md R109). -/
def State.terminate (s : State) (outcome : RunState) (n : Nat) : State :=
  { s with runState := outcome, pc := s.pcAfter n }

/-- The handler completes with `pc` at `t`: RUN_STATE <- RUNNING (spec/40_dispatcher.md R100, R106, R111). -/
def State.continueAt (s : State) (t : Word) : State := { s with pc := t, runState := .running }

/-- The stored-value range check (spec/10_state.md R25): a value of 32768 or more faults, with nothing written;
otherwise the step ends in `ok`, the state with the handler's writes made. -/
def State.rangeCheck (s : State) (v : Nat) (ok : State) : State :=
  if v < 32768 then ok else s.takeFault .storedValueOutOfRange (BitVec.ofNat 16 v)

/-- `StoreReg` (spec/10_state.md R25), then the end of an instruction of `n` words. -/
def State.storeReg (s : State) (d : Reg) (v n : Nat) : State :=
  s.rangeCheck v ((s.setReg d (BitVec.ofNat 16 v)).continueAt (s.pcAfter n))

/-- `StorePush` (spec/10_state.md R25, R31), then the end of the step with `pc` at `t`: the range check comes before
the overflow check (spec/60_exceptions.md R203). -/
def State.storePush (s : State) (v : Nat) (t : Word) : State :=
  s.rangeCheck v
    (if s.stackFull then s.takeFault .stackOverflow (BitVec.ofNat 16 v)
     else (s.push (BitVec.ofNat 16 v)).continueAt t)

/-! ### Fetch and decode -/

/-- Up to `n` words from address `a`, as far as memory goes (spec/20_memory.md R55). A read has no side effect (R59), so
reading a word the instruction turns out not to have changes nothing. -/
def Memory.fetch (m : Memory) (memLen a : Nat) : Nat → List Word
  | 0 => []
  | n + 1 => if a < memLen then m.readWord a :: Memory.fetch m memLen (a + 1) n else []

/-- The words the next step can fetch, from its opcode word on. -/
def State.fetchWindow (s : State) : List Word := s.mem.fetch s.cfg.memLen s.pc.toNat maxLength

/-- The fetch and decode phases of a step (spec/40_dispatcher.md R100). -/
def State.fetchDecode (s : State) : Except DecodeError Instr :=
  match decodeWords s.fetchWindow with
  | .ok (i, _) => .ok i
  | .error e => .error e

/-- The fault a failing check of the fetch or decode phase raises (spec/60_exceptions.md R200, R203). -/
def State.decodeFault (s : State) : DecodeError → State
  | .missing k => s.takeFault .memoryOutOfBounds (BitVec.ofNat 16 (s.pc.toNat + k))
  | .unknownOpcode w => s.takeFault .unknownOpcode w
  | .invalidOperand w => s.takeFault .invalidOperand w
  | .invalidDestination w => s.takeFault .invalidDestination w

/-- The state with the given words placed where the next step fetches, MEM_LEN grown to hold them (never above 32768),
and a step enabled: what loading these words from outside does (log 4). -/
def State.placeFetch (s : State) (ws : List Word) : State :=
  let r := if s.enabled then s else { s with runState := .running, faultCode := .none, faultPc := 0, faultWord := 0 }
  { r with
    mem := s.mem.writeWords s.pc.toNat (ws.take (32768 - s.pc.toNat))
    cfg := { s.cfg with memLen := max s.cfg.memLen (min 32768 (s.pc.toNat + ws.length)) } }

end Sys2Proof.Machine
end

