-- ==== Sys2Proof/Machine/Operands.lean ====
section
/-! DEFINITION. The two operand forms of spec/30_encoding.md R73 to R78: a general operand is a literal or the current
content of a register; a destination is a register index and reads nothing. -/

namespace Sys2Proof.Machine

/-- The value of a decoded general operand, read before the instruction writes anything
(spec/30_encoding.md R74, R77; spec/10_state.md R24). -/
def State.value (s : State) : Operand → Word
  | .literal w => w
  | .register r => s.reg r

/-- `DecodeVal(w)` of a raw operand word (spec/30_encoding.md R74). -/
def State.decodeValue (s : State) (w : Word) : Except DecodeError Word :=
  match decodeVal w with
  | .ok o => .ok (s.value o)
  | .error e => .error e

end Sys2Proof.Machine
end

