-- ==== Sys2Proof/Machine/Flags.lean ====
section
/-! DEFINITION. CORE has no flags, condition codes or predicate registers (spec/10_state.md R30). What stands in their
place: the 0-or-1 result `eq` and `gt` write, and the test of an ordinary value that `jt` and `jf` make. -/

namespace Sys2Proof.Machine

/-- The 0-or-1 result of a comparison (spec/42_alu.md R131, R132). -/
def truth (p : Bool) : Nat := if p then 1 else 0

/-- The test of `jt` and `jf`: the value is not 0 (spec/43_control.md R153, R154). -/
def testNonzero (v : Word) : Bool := decide (v.toNat ≠ 0)

end Sys2Proof.Machine
end

