-- ==== Sys2Proof/Machine/Alu.lean ====
section
/-! DEFINITION. The arithmetic unit (spec/42_alu.md R130): unsigned inputs, the exact result of each operation as a
natural number. -/

namespace Sys2Proof.Machine

/-- `(B = C) ? 1 : 0` (R131). -/
def aluEq (b c : Word) : Nat := truth (decide (b.toNat = c.toNat))

/-- `(B > C) ? 1 : 0`, unsigned (R132). -/
def aluGt (b c : Word) : Nat := truth (decide (b.toNat > c.toNat))

/-- `(B + C) mod 32768` (R133). -/
def aluAdd (b c : Word) : Nat := (b.toNat + c.toNat) % 32768

/-- `(B * C) mod 32768`, from the exact product (R134). -/
def aluMult (b c : Word) : Nat := (b.toNat * c.toNat) % 32768

/-- `B mod C`, for C > 0 (R135). -/
def aluMod (b c : Word) : Nat := b.toNat % c.toNat

/-- `B & C` (R136). -/
def aluAnd (b c : Word) : Nat := (b &&& c).toNat

/-- `B | C` (R137). -/
def aluOr (b c : Word) : Nat := (b ||| c).toNat

/-- `0x7FFF ^ B` (R138). -/
def aluNot (b : Word) : Nat := (0x7FFF#16 ^^^ b).toNat

end Sys2Proof.Machine
end

