-- ==== Sys2Proof/Machine/Arith.lean ====
section
/-! DEFINITION. The meanings of `eq`, `gt`, `add`, `mult`, `mod`, `and`, `or` and `not` (spec/42_alu.md). -/

namespace Sys2Proof.Machine

/-- `eq a, b, c` (R131). -/
def execEq (a : Reg) (b c : Operand) (s : State) : Host.Outcome State Fault Refusal :=
  .next (s.storeReg a (aluEq (s.value b) (s.value c)) 4)

/-- `gt a, b, c` (R132). -/
def execGt (a : Reg) (b c : Operand) (s : State) : Host.Outcome State Fault Refusal :=
  .next (s.storeReg a (aluGt (s.value b) (s.value c)) 4)

/-- `add a, b, c` (R133). -/
def execAdd (a : Reg) (b c : Operand) (s : State) : Host.Outcome State Fault Refusal :=
  .next (s.storeReg a (aluAdd (s.value b) (s.value c)) 4)

/-- `mult a, b, c` (R134). -/
def execMult (a : Reg) (b c : Operand) (s : State) : Host.Outcome State Fault Refusal :=
  .next (s.storeReg a (aluMult (s.value b) (s.value c)) 4)

/-- `mod a, b, c` (R135): the fault's word is the raw operand word of c. -/
def execMod (a : Reg) (b c : Operand) (s : State) : Host.Outcome State Fault Refusal :=
  if (s.value c).toNat = 0 then .next (s.takeFault .divideByZero c.encode)
  else .next (s.storeReg a (aluMod (s.value b) (s.value c)) 4)

/-- `and a, b, c` (R136). -/
def execAnd (a : Reg) (b c : Operand) (s : State) : Host.Outcome State Fault Refusal :=
  .next (s.storeReg a (aluAnd (s.value b) (s.value c)) 4)

/-- `or a, b, c` (R137). -/
def execOr (a : Reg) (b c : Operand) (s : State) : Host.Outcome State Fault Refusal :=
  .next (s.storeReg a (aluOr (s.value b) (s.value c)) 4)

/-- `not a, b` (R138). -/
def execNot (a : Reg) (b : Operand) (s : State) : Host.Outcome State Fault Refusal :=
  .next (s.storeReg a (aluNot (s.value b)) 3)

end Sys2Proof.Machine
end

