-- ==== Sys2Proof/Machine/Control.lean ====
section
/-! DEFINITION. The meanings of `halt`, `jmp`, `jt`, `jf`, `call`, `ret` and `noop` (spec/43_control.md). -/

namespace Sys2Proof.Machine

/-- `halt` (R151). -/
def execHalt (s : State) : Host.Outcome State Fault Refusal :=
  .next (s.terminate .halted 1)

/-- `jmp a` (R152). -/
def execJmp (a : Operand) (s : State) : Host.Outcome State Fault Refusal :=
  .next (s.continueAt (s.value a))

/-- `jt a, b` (R153). -/
def execJt (a b : Operand) (s : State) : Host.Outcome State Fault Refusal :=
  .next (s.continueAt (if testNonzero (s.value a) then s.value b else s.pcAfter 3))

/-- `jf a, b` (R154). -/
def execJf (a b : Operand) (s : State) : Host.Outcome State Fault Refusal :=
  .next (s.continueAt (if testNonzero (s.value a) then s.pcAfter 3 else s.value b))

/-- `call a` (R158): the return address a0 + 2 is checked before it is pushed. -/
def execCall (a : Operand) (s : State) : Host.Outcome State Fault Refusal :=
  .next (s.storePush (s.pc.toNat + 2) (s.value a))

/-- `ret` (R159). -/
def execRet (s : State) : Host.Outcome State Fault Refusal :=
  match s.pop with
  | none => .next (s.terminate .stackEnd 1)
  | some (v, t) => .next (t.continueAt v)

/-- `noop` (R160). -/
def execNoop (s : State) : Host.Outcome State Fault Refusal :=
  .next (s.continueAt (s.pcAfter 1))

end Sys2Proof.Machine
end

