-- ==== Sys2Proof/Machine/Io.lean ====
section
/-! DEFINITION. The meanings of `out` and `in` (spec/45_io.md), and the two things the host may do to the input during a
run (R184, R186). -/

namespace Sys2Proof.Machine

/-- `out a` (R189). -/
def execOut (a : Operand) (s : State) : Host.Outcome State Fault Refusal :=
  .next ((s.outPort (s.value a)).continueAt (s.pcAfter 2))

/-- `in a` (R190): a character of 32768 or more is consumed and then faults (log 8). -/
def execIn (a : Reg) (s : State) : Host.Outcome State Fault Refusal :=
  match s.inPort with
  | (.pending, _) => .next s.hold
  | (.closed, _) => .next (s.takeFault .inputExhausted 0)
  | (.char c, t) => .next (t.storeReg a c 2)

/-- The code point of the newline (R184, 93 G2; log 11). -/
def newline : Nat := 10

/-- One whole line: it ends with its newline, its only one (R184). -/
def wholeLine (line : List Nat) : Bool :=
  decide (line.getLast? = some newline ∧ newline ∉ line.dropLast)

/-- The host delivers one whole line (R184, R186; log 10). -/
def deliverLine (line : List Nat) (s : State) : Host.Outcome State Fault Refusal :=
  if s.inClosed then .refused .hostBreaksContract
  else if wholeLine line then .next { s with inBuf := s.inBuf ++ line }
  else .refused .hostBreaksContract

/-- The host closes the input; `rest` is what had arrived of an unfinished line (R184, 93 I19; log 10). -/
def closeInput (rest : List Nat) (s : State) : Host.Outcome State Fault Refusal :=
  if s.inClosed then
    if rest = [] then .next s else .refused .hostBreaksContract
  else if newline ∈ rest then .refused .hostBreaksContract
  else .next { s with inBuf := s.inBuf ++ rest, inClosed := true }

end Sys2Proof.Machine
end

