-- ==== Sys2Proof/Machine/MemAccess.lean ====
section
/-! DEFINITION. The meanings of `rmem` and `wmem` (spec/44_memory_access.md). -/

namespace Sys2Proof.Machine

/-- `rmem a, b` (R170): the bounds check, then the range check of the word read. -/
def execRmem (a : Reg) (b : Operand) (s : State) : Host.Outcome State Fault Refusal :=
  if s.inMemory (s.value b).toNat then .next (s.storeReg a (s.memRead (s.value b).toNat).toNat 3)
  else .next (s.takeFault .memoryOutOfBounds (s.value b))

/-- `wmem a, b` (R171). -/
def execWmem (a b : Operand) (s : State) : Host.Outcome State Fault Refusal :=
  if s.inMemory (s.value a).toNat then
    .next ((s.memWrite (s.value a).toNat (s.value b)).continueAt (s.pcAfter 3))
  else .next (s.takeFault .memoryOutOfBounds (s.value a))

end Sys2Proof.Machine
end

