-- ==== Sys2Proof/Machine/MoveStack.lean ====
section
/-! DEFINITION. The meanings of `set`, `push` and `pop` (spec/41_move_stack.md). A meaning runs with `pc` at the step's
opcode address a0 and gives the whole step's effect. -/

namespace Sys2Proof.Machine

/-- `set a, b` (R120). -/
def execSet (a : Reg) (b : Operand) (s : State) : Host.Outcome State Fault Refusal :=
  .next (s.storeReg a (s.value b).toNat 3)

/-- `push a` (R121). -/
def execPush (a : Operand) (s : State) : Host.Outcome State Fault Refusal :=
  .next (s.storePush (s.value a).toNat (s.pcAfter 2))

/-- `pop a` (R122): the range check of R25 comes before the entry is removed (spec/40_dispatcher.md R105). -/
def execPop (a : Reg) (s : State) : Host.Outcome State Fault Refusal :=
  match s.pop with
  | none => .next (s.terminate .stackEnd 2)
  | some (v, t) => .next (s.rangeCheck v.toNat ((t.setReg a v).continueAt (s.pcAfter 2)))

end Sys2Proof.Machine
end

