-- ==== Sys2Proof/Machine/Step.lean ====
section
/-! DEFINITION. One step (spec/40_dispatcher.md R100, R101): if a step is enabled, fetch and decode at `pc`, then run the
handler; a failing check of the fetch or decode phase takes its fault. -/

namespace Sys2Proof.Machine

/-- One step of CORE (R100). Where no step is enabled (R101) the model stops by name (log 6). -/
def step (s : State) : Host.Outcome State Fault Refusal :=
  if s.enabled then
    match s.fetchDecode with
    | .ok i => exec i s
    | .error e => .next (s.decodeFault e)
  else .fault (.noStepEnabled s.runState)

/-- `s` with the instruction whose bits are `w` (numbered as the opcode table numbers them) where the next step fetches,
so that the next step runs it (log 4). -/
def State.withFetchWord (s : State) (nbits w : Nat) : State := s.placeFetch (tableWords nbits w)

end Sys2Proof.Machine
end

