-- ==== Sys2Proof/Machine/Loader.lean ====
section
/-! DEFINITION. Construction and the load contract (spec/70_reset_and_hazards.md R240 to R248). The loader's own
workings are out of scope (spec/00_scope.md R5 (e)); this is its contract. -/

namespace Sys2Proof.Machine

/-- What the loader reads: the bytes of the stream, and whether reading it failed (R247). -/
structure LoadStream where
  bytes : List Byte
  readFailed : Bool
  deriving DecidableEq, Repr

/-- Construction (R240 part 1): IDLE, everything zero or empty, with the given STACK_DEPTH. No word is addressable
before the load (log 3). -/
def State.construct (stackDepth : Option Nat) : State :=
  { State.reset with runState := .idle, cfg := { memLen := 0, stackDepth := stackDepth } }

/-- The largest image, in bytes: 32768 words (R247, decision D4). -/
def maxImageBytes : Nat := 65536

/-- A failed load (R247). What memory holds afterwards is a free value (log 5). -/
def State.loadFault (s : State) (code : FaultCode) (bytes : List Byte) : State :=
  { s with
    runState := .faulted
    faultCode := code
    faultPc := 0
    faultWord := 0
    mem := Memory.ofBytes 0 ((Config.failedLoadImage bytes).take maxImageBytes)
    cfg := { s.cfg with memLen := (((Config.failedLoadImage bytes).take maxImageBytes).length + 1) / 2 } }

/-- A successful load of an image of whole words (R246): the image at 0..L-1, zero above, and the machine starts. -/
def State.loadOk (s : State) (bytes : List Byte) (memLen : Nat) : State :=
  { s with
    mem := Memory.ofBytes 0 bytes
    cfg := { s.cfg with memLen := memLen }
    runState := .running
    faultCode := .none
    faultPc := 0
    faultWord := 0 }

/-- LOAD (spec/00_scope.md R9 (a), R11): the stream is handed over before the first step, with MEM_LEN or its default
L. The checks come in the loader's order: read failure, odd length, too large (spec/60_exceptions.md R203). -/
def load (memLen : Option Nat) (st : LoadStream) (s : State) : Host.Outcome State Fault Refusal :=
  if s.runState ≠ .idle then .refused (.loadAfterStart s.runState)
  else if st.readFailed then .next (s.loadFault .loadReadFailure st.bytes)
  else if st.bytes.length % 2 = 1 then .next (s.loadFault .loadOddLength st.bytes)
  else if maxImageBytes < st.bytes.length then .next (s.loadFault .loadImageTooLarge st.bytes)
  else
    match memLen with
    | none => .next (s.loadOk st.bytes (st.bytes.length / 2))
    | some n =>
      if st.bytes.length / 2 ≤ n ∧ n ≤ 32768 then .next (s.loadOk st.bytes n)
      else .refused (.memLenOutOfRange n)

end Sys2Proof.Machine
end

