-- ==== Sys2Proof/Machine/Status.lean ====
section
/-! DEFINITION. The STATUS port: the four host-visible registers in their bit encodings and the exit status
(spec/10_state.md R33 to R37, spec/60_exceptions.md R200, R212). No instruction reads them (R37). -/

namespace Sys2Proof.Machine

/-- The 3-bit value of RUN_STATE (R33). -/
def RunState.code : RunState → BitVec 3
  | .idle => 0
  | .running => 1
  | .waitingInput => 2
  | .halted => 3
  | .stackEnd => 4
  | .faulted => 5

/-- The 4-bit value of FAULT_CODE (R34, R200). -/
def FaultCode.code : FaultCode → BitVec 4
  | .none => 0
  | .loadOddLength => 1
  | .loadReadFailure => 2
  | .loadImageTooLarge => 3
  | .invalidOperand => 4
  | .invalidDestination => 5
  | .unknownOpcode => 6
  | .inputExhausted => 7
  | .memoryOutOfBounds => 8
  | .divideByZero => 9
  | .stackOverflow => 10
  | .storedValueOutOfRange => 11

/-- The exit status: 0 for a clean stop, 1 for a fault, none while the run has not ended (R212; log 13). -/
def RunState.exitStatus : RunState → Option Nat
  | .halted => some 0
  | .stackEnd => some 0
  | .faulted => some 1
  | .idle => none
  | .running => none
  | .waitingInput => none

/-- What the host reads at the STATUS port (spec/00_scope.md R9 (e)). -/
structure StatusPort where
  runState : BitVec 3
  faultCode : BitVec 4
  faultPc : Word
  faultWord : Word
  exitStatus : Option Nat
  deriving DecidableEq, Repr

/-- The STATUS port of a state. -/
def State.statusPort (s : State) : StatusPort where
  runState := s.runState.code
  faultCode := s.faultCode.code
  faultPc := s.faultPc
  faultWord := s.faultWord
  exitStatus := s.runState.exitStatus

end Sys2Proof.Machine
end

