-- ==== Sys2Proof/Machine/Assembly.lean ====
section
/-! DEFINITION. The assembly text of an instruction (spec/00_scope.md R18, spec/30_encoding.md R85). It is a way to write
instructions down; no step reads it. Labels and `.word` lines are only the notation of spec/95_test_vectors.md (D20). -/

namespace Sys2Proof.Machine

/-- The assembly mnemonic (R18). -/
def mnemonicOf : Instr → String
  | .halt => "halt"
  | .set _ _ => "set"
  | .push _ => "push"
  | .pop _ => "pop"
  | .eq _ _ _ => "eq"
  | .gt _ _ _ => "gt"
  | .jmp _ => "jmp"
  | .jt _ _ => "jt"
  | .jf _ _ => "jf"
  | .add _ _ _ => "add"
  | .mult _ _ _ => "mult"
  | .mod _ _ _ => "mod"
  | .and _ _ _ => "and"
  | .or _ _ _ => "or"
  | .not _ _ => "not"
  | .rmem _ _ => "rmem"
  | .wmem _ _ => "wmem"
  | .call _ => "call"
  | .ret => "ret"
  | .out _ => "out"
  | .inChar _ => "in"
  | .noop => "noop"

/-- A register's name, `r0`..`r7` (R18). -/
def regText (r : Reg) : String := "r" ++ toString r.val

/-- A general operand: a decimal literal or a register name (R85). -/
def operandText : Operand → String
  | .literal w => toString w.toNat
  | .register r => regText r

/-- The operands of an instruction, in the order of spec/30_encoding.md R80. -/
def operandTexts : Instr → List String
  | .halt => []
  | .set a b => [regText a, operandText b]
  | .push a => [operandText a]
  | .pop a => [regText a]
  | .eq a b c => [regText a, operandText b, operandText c]
  | .gt a b c => [regText a, operandText b, operandText c]
  | .jmp a => [operandText a]
  | .jt a b => [operandText a, operandText b]
  | .jf a b => [operandText a, operandText b]
  | .add a b c => [regText a, operandText b, operandText c]
  | .mult a b c => [regText a, operandText b, operandText c]
  | .mod a b c => [regText a, operandText b, operandText c]
  | .and a b c => [regText a, operandText b, operandText c]
  | .or a b c => [regText a, operandText b, operandText c]
  | .not a b => [regText a, operandText b]
  | .rmem a b => [regText a, operandText b]
  | .wmem a b => [operandText a, operandText b]
  | .call a => [operandText a]
  | .ret => []
  | .out a => [operandText a]
  | .inChar a => [regText a]
  | .noop => []

/-- One statement: the mnemonic, then its operands separated by commas (R85). -/
def statementText (i : Instr) : String :=
  match operandTexts i with
  | [] => mnemonicOf i
  | os => mnemonicOf i ++ " " ++ ",".intercalate os

/-- Statements on one line, separated by `;` (R85). -/
def lineText (is : List Instr) : String := "; ".intercalate (is.map statementText)

end Sys2Proof.Machine
end

