-- ==== Sys2Proof/Machine/Trace.lean ====
section
/-! DEFINITION. The TRACE port (spec/60_exceptions.md R224, R225): the record a step may emit, computed beside the step.
The step does not read it, and no state holds it. The record's text and its sink are the host's (spec/00_scope.md
R5 (c); log 15). -/

namespace Sys2Proof.Machine

/-- A decoded operand as the trace shows it: a literal's value, or a register's index and its value at decode time
(R224). -/
inductive TraceOperand where
  | literal (v : Word)
  | register (r : Reg) (v : Word)
  deriving DecidableEq, Repr

/-- One trace record (R224). -/
structure TraceRecord where
  /-- the opcode address a0 -/
  pc : Word
  mnemonic : String
  operands : List TraceOperand
  /-- the eight registers after the step -/
  regs : Vector Word 8
  deriving DecidableEq, Repr

/-- A destination in the trace: its index and its value at decode time (log 15). -/
def State.traceDst (s : State) (r : Reg) : TraceOperand := .register r (s.reg r)

/-- A general operand in the trace. -/
def State.traceVal (s : State) : Operand → TraceOperand
  | .literal w => .literal w
  | .register r => .register r (s.reg r)

/-- The decoded operands of an instruction, in operand order, as the trace shows them. -/
def State.traceOperands (s : State) : Instr → List TraceOperand
  | .halt => []
  | .set a b => [s.traceDst a, s.traceVal b]
  | .push a => [s.traceVal a]
  | .pop a => [s.traceDst a]
  | .eq a b c => [s.traceDst a, s.traceVal b, s.traceVal c]
  | .gt a b c => [s.traceDst a, s.traceVal b, s.traceVal c]
  | .jmp a => [s.traceVal a]
  | .jt a b => [s.traceVal a, s.traceVal b]
  | .jf a b => [s.traceVal a, s.traceVal b]
  | .add a b c => [s.traceDst a, s.traceVal b, s.traceVal c]
  | .mult a b c => [s.traceDst a, s.traceVal b, s.traceVal c]
  | .mod a b c => [s.traceDst a, s.traceVal b, s.traceVal c]
  | .and a b c => [s.traceDst a, s.traceVal b, s.traceVal c]
  | .or a b c => [s.traceDst a, s.traceVal b, s.traceVal c]
  | .not a b => [s.traceDst a, s.traceVal b]
  | .rmem a b => [s.traceDst a, s.traceVal b]
  | .wmem a b => [s.traceVal a, s.traceVal b]
  | .call a => [s.traceVal a]
  | .ret => []
  | .out a => [s.traceVal a]
  | .inChar a => [s.traceDst a]
  | .noop => []

/-- The run state after a step that emits a record: the step continued or terminated cleanly (R224). -/
def RunState.traced : RunState → Bool
  | .running | .halted | .stackEnd => true
  | .idle | .waitingInput | .faulted => false

/-- The record the step from `s` may emit (R224): none for a hold, a fault, or where no step is enabled. -/
def stepTrace (s : State) : Option TraceRecord :=
  match s.fetchDecode, step s with
  | .ok i, .next t =>
    if t.runState.traced then
      some { pc := s.pc, mnemonic := mnemonicOf i, operands := s.traceOperands i, regs := t.regs }
    else none
  | _, _ => none

end Sys2Proof.Machine
end

