-- ==== Sys2Proof/Safety.lean ====
section
/-! DEFINITION. The terms the statements use: the invariant of a run, what a run is and when it is safe, what "the same
but for" means, and what it means that an opcode has a format. -/

namespace Sys2Proof.Machine

/-! ### The invariant -/

/-- What holds of every state of a run (spec/10_state.md R22, R28, R31, R34 to R36; spec/20_memory.md R60;
spec/00_scope.md R11). -/
structure State.Inv (s : State) : Prop where
  /-- memory is in canonical form -/
  memWf : s.mem.wf
  /-- no cell lies at or beyond MEM_LEN (spec/20_memory.md R60) -/
  memBelow : ∀ c ∈ s.mem, c.1 < 2 * s.cfg.memLen
  /-- MEM_LEN <= 32768 (spec/00_scope.md R11) -/
  memLenLe : s.cfg.memLen ≤ 32768
  /-- STACK_DEPTH is positive (spec/00_scope.md R11) -/
  depthPos : ∀ d, s.cfg.stackDepth = some d → 0 < d
  /-- bit 15 of every register is 0 (spec/10_state.md R22) -/
  regsBelow : ∀ r, (s.reg r).toNat < 32768
  /-- bit 15 of every stack entry is 0 (spec/10_state.md R31) -/
  stackBelow : ∀ v ∈ s.stack, v.toNat < 32768
  /-- the stack is no deeper than STACK_DEPTH (spec/10_state.md R41) -/
  depthLe : ∀ d, s.cfg.stackDepth = some d → s.stack.length ≤ d
  /-- pc lies in 0..32768 (spec/10_state.md R28) -/
  pcLe : s.pc.toNat ≤ 32768
  /-- every value handed to OUT lies below 32768 (spec/45_io.md R181) -/
  outputBelow : ∀ v ∈ s.output, v.toNat < 32768
  /-- the fault record is empty unless CORE is FAULTED (spec/10_state.md R34 to R36) -/
  recordEmpty : s.runState ≠ .faulted → s.faultCode = .none ∧ s.faultPc = 0 ∧ s.faultWord = 0
  /-- a FAULTED state names its fault (spec/10_state.md R34) -/
  recordSet : s.runState = .faulted → s.faultCode ≠ .none

/-! ### Runs -/

/-- One thing that can happen to the machine: a step, or one of the host's actions (spec/45_io.md R186). -/
inductive Move : State → State → Prop where
  | step {s t : State} (h : step s = .next t) : Move s t
  | load {s t : State} (memLen : Option Nat) (st : LoadStream) (h : load memLen st s = .next t) : Move s t
  | deliver {s t : State} (line : List Nat) (h : deliverLine line s = .next t) : Move s t
  | close {s t : State} (rest : List Nat) (h : closeInput rest s = .next t) : Move s t

/-- The states a machine built with a legal STACK_DEPTH can reach under any host (spec/70_reset_and_hazards.md R240;
spec/93_implementation_defined.md I6). -/
inductive Reachable : State → Prop where
  | construct (depth : Option Nat) (h : ∀ d, depth = some d → 0 < d) : Reachable (State.construct depth)
  | move {s t : State} (hs : Reachable s) (h : Move s t) : Reachable t

/-- The run has ended (spec/40_dispatcher.md R113). -/
def State.ended (s : State) : Prop := s.runState = .halted ∨ s.runState = .stackEnd ∨ s.runState = .faulted

/-- The run has ended cleanly (spec/40_dispatcher.md R113). -/
def State.endedCleanly (s : State) : Prop := s.runState = .halted ∨ s.runState = .stackEnd

/-- The next `k` steps raise no fault: each is enabled and continues, holds, or ends the run cleanly. -/
def SafeFor : Nat → State → Prop
  | 0, s => s.runState ≠ .faulted
  | k + 1, s =>
    s.runState ≠ .faulted ∧ (s.ended ∨ ∃ t, step s = .next t ∧ SafeFor k t)

/-! ### Operands and frames -/

/-- The operand's value lies in 0..32767, as every decoded operand's does in a run (spec/30_encoding.md R74). -/
abbrev State.InRange (s : State) (o : Operand) : Prop := (s.value o).toNat < 32768

/-- Every byte of memory reads the same. -/
def SameMemory (s t : State) : Prop := ∀ a, t.mem.readByte a = s.mem.readByte a

/-- Every register reads the same. -/
def SameRegs (s t : State) : Prop := ∀ r, t.reg r = s.reg r

/-- Every register but `d` reads the same. -/
def SameRegsBut (d : Reg) (s t : State) : Prop := ∀ r, r ≠ d → t.reg r = s.reg r

/-- The IN port's host-side state is the same (spec/45_io.md R183). -/
def SameInput (s t : State) : Prop :=
  t.inBuf = s.inBuf ∧ t.inClosed = s.inClosed ∧ t.inConsumed = s.inConsumed

/-- The fault record is the same, unless the step faulted (spec/10_state.md R34 to R36). -/
def SameRecordUnlessFaulted (s t : State) : Prop :=
  t.runState = .faulted ∨ (t.faultCode = s.faultCode ∧ t.faultPc = s.faultPc ∧ t.faultWord = s.faultWord)

/-- What an instruction that only writes register `d` leaves alone, when it gives a next state: every other register,
every byte of memory, the stack, the ports, the parameters, and the fault record unless it faults; and if it faults,
`d` too. -/
def WritesAtMost (d : Reg) (i : Instr) : Prop :=
  ∀ s t, exec i s = .next t →
    SameRegsBut d s t ∧ (t.runState = .faulted → SameRegs s t) ∧ SameMemory s t ∧ t.stack = s.stack ∧
      t.output = s.output ∧ SameInput s t ∧ t.cfg = s.cfg ∧ SameRecordUnlessFaulted s t

/-- What an instruction that writes no register and no memory leaves alone, when it gives a next state: every register,
every byte of memory, the input, the parameters, and the fault record unless it faults. The stack and OUT are named by
the statement. -/
def WritesNoRegisterOrMemory (i : Instr) : Prop :=
  ∀ s t, exec i s = .next t →
    SameRegs s t ∧ SameMemory s t ∧ SameInput s t ∧ t.cfg = s.cfg ∧ SameRecordUnlessFaulted s t

/-! ### Formats (spec/30_encoding.md R81) -/

/-- The raw words a destination operand may be (spec/30_encoding.md R75, R76). -/
abbrev IsDstWord (w : Word) : Prop := 32768 ≤ w.toNat ∧ w.toNat ≤ 32775

/-- The raw words a general operand may be (spec/30_encoding.md R74, R76). -/
abbrev IsValWord (w : Word) : Prop := w.toNat ≤ 32775

/-- `op` alone encodes `i`, and decodes to it whatever follows (format F0). -/
def HasFormatF0 (op : Word) (i : Instr) : Prop :=
  encode i = [op] ∧ ∀ rest, decodeWords (op :: rest) = .ok (i, rest)

/-- `op` has format F1V: its encoding, its decoding, and the decode faults of its operand. -/
def HasFormatF1V (op : Word) (mk : Operand → Instr) : Prop :=
  (∀ a, encode (mk a) = [op, a.encode]) ∧
  (∀ a rest, a.wf = true → decodeWords (op :: a.encode :: rest) = .ok (mk a, rest)) ∧
  decodeWords [op] = .error (.missing 1) ∧
  ∀ wa rest, ¬ IsValWord wa → decodeWords (op :: wa :: rest) = .error (.invalidOperand wa)

/-- `op` has format F1D. -/
def HasFormatF1D (op : Word) (mk : Reg → Instr) : Prop :=
  (∀ a, encode (mk a) = [op, Reg.encode a]) ∧
  (∀ a rest, decodeWords (op :: Reg.encode a :: rest) = .ok (mk a, rest)) ∧
  decodeWords [op] = .error (.missing 1) ∧
  ∀ wa rest, ¬ IsDstWord wa → decodeWords (op :: wa :: rest) = .error (.invalidDestination wa)

/-- `op` has format F2DV. -/
def HasFormatF2DV (op : Word) (mk : Reg → Operand → Instr) : Prop :=
  (∀ a b, encode (mk a b) = [op, Reg.encode a, b.encode]) ∧
  (∀ a b rest, b.wf = true → decodeWords (op :: Reg.encode a :: b.encode :: rest) = .ok (mk a b, rest)) ∧
  decodeWords [op] = .error (.missing 1) ∧
  (∀ wa rest, ¬ IsDstWord wa → decodeWords (op :: wa :: rest) = .error (.invalidDestination wa)) ∧
  (∀ wa, IsDstWord wa → decodeWords [op, wa] = .error (.missing 2)) ∧
  ∀ wa wb rest, IsDstWord wa → ¬ IsValWord wb →
    decodeWords (op :: wa :: wb :: rest) = .error (.invalidOperand wb)

/-- `op` has format F2VV. -/
def HasFormatF2VV (op : Word) (mk : Operand → Operand → Instr) : Prop :=
  (∀ a b, encode (mk a b) = [op, a.encode, b.encode]) ∧
  (∀ a b rest, a.wf = true → b.wf = true →
    decodeWords (op :: a.encode :: b.encode :: rest) = .ok (mk a b, rest)) ∧
  decodeWords [op] = .error (.missing 1) ∧
  (∀ wa rest, ¬ IsValWord wa → decodeWords (op :: wa :: rest) = .error (.invalidOperand wa)) ∧
  (∀ wa, IsValWord wa → decodeWords [op, wa] = .error (.missing 2)) ∧
  ∀ wa wb rest, IsValWord wa → ¬ IsValWord wb →
    decodeWords (op :: wa :: wb :: rest) = .error (.invalidOperand wb)

/-- `op` has format F3DVV. -/
def HasFormatF3DVV (op : Word) (mk : Reg → Operand → Operand → Instr) : Prop :=
  (∀ a b c, encode (mk a b c) = [op, Reg.encode a, b.encode, c.encode]) ∧
  (∀ a b c rest, b.wf = true → c.wf = true →
    decodeWords (op :: Reg.encode a :: b.encode :: c.encode :: rest) = .ok (mk a b c, rest)) ∧
  decodeWords [op] = .error (.missing 1) ∧
  (∀ wa rest, ¬ IsDstWord wa → decodeWords (op :: wa :: rest) = .error (.invalidDestination wa)) ∧
  (∀ wa, IsDstWord wa → decodeWords [op, wa] = .error (.missing 2)) ∧
  (∀ wa wb rest, IsDstWord wa → ¬ IsValWord wb →
    decodeWords (op :: wa :: wb :: rest) = .error (.invalidOperand wb)) ∧
  (∀ wa wb, IsDstWord wa → IsValWord wb → decodeWords [op, wa, wb] = .error (.missing 3)) ∧
  ∀ wa wb wc rest, IsDstWord wa → IsValWord wb → ¬ IsValWord wc →
    decodeWords (op :: wa :: wb :: wc :: rest) = .error (.invalidOperand wc)

/-! ### Tables of the spec -/

/-- The destination register of an instruction, if it has a destination operand (spec/10_state.md R21). -/
def destination : Instr → Option Reg
  | .set a _ => some a
  | .pop a => some a
  | .eq a _ _ => some a
  | .gt a _ _ => some a
  | .add a _ _ => some a
  | .mult a _ _ => some a
  | .mod a _ _ => some a
  | .and a _ _ => some a
  | .or a _ _ => some a
  | .not a _ => some a
  | .rmem a _ => some a
  | .inChar a => some a
  | .halt => none
  | .push _ => none
  | .jmp _ => none
  | .jt _ _ => none
  | .jf _ _ => none
  | .wmem _ _ => none
  | .call _ => none
  | .ret => none
  | .out _ => none
  | .noop => none

/-- The faults an instruction can raise in its execute phase (spec/60_exceptions.md R202). -/
def executeFaults : Instr → List FaultCode
  | .halt => []
  | .set _ _ => []
  | .push _ => [.stackOverflow]
  | .pop _ => []
  | .eq _ _ _ => []
  | .gt _ _ _ => []
  | .jmp _ => []
  | .jt _ _ => []
  | .jf _ _ => []
  | .add _ _ _ => []
  | .mult _ _ _ => []
  | .mod _ _ _ => [.divideByZero]
  | .and _ _ _ => []
  | .or _ _ _ => []
  | .not _ _ => []
  | .rmem _ _ => [.memoryOutOfBounds, .storedValueOutOfRange]
  | .wmem _ _ => [.memoryOutOfBounds]
  | .call _ => [.storedValueOutOfRange, .stackOverflow]
  | .ret => []
  | .out _ => []
  | .inChar _ => [.inputExhausted, .storedValueOutOfRange]
  | .noop => []

/-- When an instruction raises a fault in its execute phase, and with which word: the `raise` lines of its rule's
pseudocode (spec/41_move_stack.md R121, spec/42_alu.md R135, spec/43_control.md R158, spec/44_memory_access.md R170 and
R171, spec/45_io.md R190), in states of a run. -/
def Raises (s : State) (code : FaultCode) (word : Word) : Instr → Prop
  | .push a => s.cfg.stackDepth = some s.stack.length ∧ code = .stackOverflow ∧ word = s.value a
  | .mod _ _ c => s.value c = 0 ∧ code = .divideByZero ∧ word = c.encode
  | .rmem _ b =>
    (s.cfg.memLen ≤ (s.value b).toNat ∧ code = .memoryOutOfBounds ∧ word = s.value b) ∨
    ((s.value b).toNat < s.cfg.memLen ∧ 32768 ≤ (s.memRead (s.value b).toNat).toNat ∧
      code = .storedValueOutOfRange ∧ word = s.memRead (s.value b).toNat)
  | .wmem a _ => s.cfg.memLen ≤ (s.value a).toNat ∧ code = .memoryOutOfBounds ∧ word = s.value a
  | .call _ =>
    (32768 ≤ s.pc.toNat + 2 ∧ code = .storedValueOutOfRange ∧ word = s.pc + 2) ∨
    (s.pc.toNat + 2 < 32768 ∧ s.cfg.stackDepth = some s.stack.length ∧ code = .stackOverflow ∧ word = s.pc + 2)
  | .inChar _ =>
    (s.inBuf = [] ∧ s.inClosed = true ∧ code = .inputExhausted ∧ word = 0) ∨
    ∃ c cs, s.inBuf = c :: cs ∧ 32768 ≤ c ∧ code = .storedValueOutOfRange ∧ word = BitVec.ofNat 16 (c % 65536)
  | .halt => False
  | .set _ _ => False
  | .pop _ => False
  | .eq _ _ _ => False
  | .gt _ _ _ => False
  | .jmp _ => False
  | .jt _ _ => False
  | .jf _ _ => False
  | .add _ _ _ => False
  | .mult _ _ _ => False
  | .and _ _ _ => False
  | .or _ _ _ => False
  | .not _ _ => False
  | .ret => False
  | .out _ => False
  | .noop => False

/-- The mnemonics in the order of their opcodes (spec/30_encoding.md R80). -/
def mnemonicTable : List String :=
  ["halt", "set", "push", "pop", "eq", "gt", "jmp", "jt", "jf", "add", "mult"] ++
  ["mod", "and", "or", "not", "rmem", "wmem", "call", "ret", "out", "in", "noop"]

/-- The next pc of an instruction that neither faults nor holds (spec/40_dispatcher.md R111). -/
def nextPc (s : State) : Instr → Word
  | .jmp a => s.value a
  | .jt a b => if s.value a ≠ 0 then s.value b else s.pc + 3
  | .jf a b => if s.value a = 0 then s.value b else s.pc + 3
  | .call a => s.value a
  | .ret => s.stack.getLast?.getD (s.pc + 1)
  | .halt => s.pc + 1
  | .noop => s.pc + 1
  | .push _ => s.pc + 2
  | .pop _ => s.pc + 2
  | .out _ => s.pc + 2
  | .inChar _ => s.pc + 2
  | .set _ _ => s.pc + 3
  | .not _ _ => s.pc + 3
  | .rmem _ _ => s.pc + 3
  | .wmem _ _ => s.pc + 3
  | .eq _ _ _ => s.pc + 4
  | .gt _ _ _ => s.pc + 4
  | .add _ _ _ => s.pc + 4
  | .mult _ _ _ => s.pc + 4
  | .mod _ _ _ => s.pc + 4
  | .and _ _ _ => s.pc + 4
  | .or _ _ _ => s.pc + 4

end Sys2Proof.Machine
end

