-- ==== Sys2Proof/Certificates/Slice0/Obligations.lean ====
section
/-! DEFINITION. The statements for the provers, from the numbered rules of spec/. In a statement about an instruction,
`s` is the state before the step (its `pc` is the opcode address a0), A, B and C are `s.value a`, `s.value b` and
`s.value c`, and the next state is written out whole: what the record update does not name is unchanged. -/

open Sys2Proof Sys2Proof.Machine

/-! ### The instructions -/

/-- R151: `halt` ends the run cleanly with pc at a0 + 1. -/
def Obligations.HaltStopsCleanly : Prop :=
  HasFormatF0 0 .halt ∧
  ∀ s, exec .halt s = .next { s with runState := .halted, pc := s.pc + 1 }

/-- R120: `set` writes its second operand's value to its destination. -/
def Obligations.SetCopiesTheValue : Prop :=
  HasFormatF2DV 1 .set ∧
  ∀ a b s, s.InRange b →
    exec (.set a b) s =
      .next { s with regs := s.regs.set a.val (s.value b) a.isLt, pc := s.pc + 3, runState := .running }

/-- R121: `push` puts its operand's value on top, or faults when the stack is full. -/
def Obligations.PushPushesOrOverflows : Prop :=
  HasFormatF1V 2 .push ∧
  ∀ a s, s.InRange a →
    (s.cfg.stackDepth ≠ some s.stack.length →
      exec (.push a) s =
        .next { s with stack := s.stack ++ [s.value a], pc := s.pc + 2, runState := .running }) ∧
    (s.cfg.stackDepth = some s.stack.length →
      exec (.push a) s = .next (s.takeFault .stackOverflow (s.value a)))

/-- R122: `pop` moves the top entry to its destination, or ends the run cleanly on an empty stack. -/
def Obligations.PopTakesTheTopOrEnds : Prop :=
  HasFormatF1D 3 .pop ∧
  ∀ a s,
    (s.stack = [] → exec (.pop a) s = .next { s with runState := .stackEnd, pc := s.pc + 2 }) ∧
    ∀ st v, s.stack = st ++ [v] → v.toNat < 32768 →
      exec (.pop a) s =
        .next { s with
          stack := st, regs := s.regs.set a.val v a.isLt, pc := s.pc + 2, runState := .running }

/-- R131: `eq` writes 1 if the values are equal, else 0. -/
def Obligations.EqWritesOneIfEqual : Prop :=
  HasFormatF3DVV 4 .eq ∧
  ∀ a b c s,
    exec (.eq a b c) s =
      .next { s with
        regs := s.regs.set a.val (if s.value b = s.value c then 1 else 0) a.isLt
        pc := s.pc + 4, runState := .running }

/-- R132: `gt` writes 1 if B is greater than C as unsigned values, else 0. -/
def Obligations.GtWritesOneIfGreater : Prop :=
  HasFormatF3DVV 5 .gt ∧
  ∀ a b c s,
    exec (.gt a b c) s =
      .next { s with
        regs := s.regs.set a.val (if (s.value c).toNat < (s.value b).toNat then 1 else 0) a.isLt
        pc := s.pc + 4, runState := .running }

/-- R152: `jmp` sets pc to its operand's value. -/
def Obligations.JmpGoesToItsTarget : Prop :=
  HasFormatF1V 6 .jmp ∧
  ∀ a s, exec (.jmp a) s = .next { s with pc := s.value a, runState := .running }

/-- R153: `jt` jumps exactly when its test is not 0. -/
def Obligations.JtJumpsIfNonzero : Prop :=
  HasFormatF2VV 7 .jt ∧
  ∀ a b s,
    (s.value a ≠ 0 → exec (.jt a b) s = .next { s with pc := s.value b, runState := .running }) ∧
    (s.value a = 0 → exec (.jt a b) s = .next { s with pc := s.pc + 3, runState := .running })

/-- R154: `jf` jumps exactly when its test is 0. -/
def Obligations.JfJumpsIfZero : Prop :=
  HasFormatF2VV 8 .jf ∧
  ∀ a b s,
    (s.value a = 0 → exec (.jf a b) s = .next { s with pc := s.value b, runState := .running }) ∧
    (s.value a ≠ 0 → exec (.jf a b) s = .next { s with pc := s.pc + 3, runState := .running })

/-- R133: `add` writes (B + C) mod 32768. -/
def Obligations.AddWritesSumMod32768 : Prop :=
  HasFormatF3DVV 9 .add ∧
  ∀ a b c s,
    exec (.add a b c) s =
      .next { s with
        regs := s.regs.set a.val (BitVec.ofNat 16 (((s.value b).toNat + (s.value c).toNat) % 32768)) a.isLt
        pc := s.pc + 4, runState := .running }

/-- R134: `mult` writes (B * C) mod 32768, from the exact product. -/
def Obligations.MultWritesProductMod32768 : Prop :=
  HasFormatF3DVV 10 .mult ∧
  ∀ a b c s,
    exec (.mult a b c) s =
      .next { s with
        regs := s.regs.set a.val (BitVec.ofNat 16 (((s.value b).toNat * (s.value c).toNat) % 32768)) a.isLt
        pc := s.pc + 4, runState := .running }

/-- R135: `mod` writes the remainder, or faults with the raw word of c when C is 0. -/
def Obligations.ModWritesRemainderOrFaults : Prop :=
  HasFormatF3DVV 11 .mod ∧
  ∀ a b c s, s.InRange b → s.InRange c →
    (s.value c ≠ 0 →
      exec (.mod a b c) s =
        .next { s with
          regs := s.regs.set a.val (BitVec.ofNat 16 ((s.value b).toNat % (s.value c).toNat)) a.isLt
          pc := s.pc + 4, runState := .running }) ∧
    (s.value c = 0 → exec (.mod a b c) s = .next (s.takeFault .divideByZero c.encode))

/-- R136: `and` writes the bitwise AND. -/
def Obligations.AndWritesBitwiseAnd : Prop :=
  HasFormatF3DVV 12 .and ∧
  ∀ a b c s, s.InRange b → s.InRange c →
    exec (.and a b c) s =
      .next { s with
        regs := s.regs.set a.val (s.value b &&& s.value c) a.isLt, pc := s.pc + 4, runState := .running }

/-- R137: `or` writes the bitwise OR. -/
def Obligations.OrWritesBitwiseOr : Prop :=
  HasFormatF3DVV 13 .or ∧
  ∀ a b c s, s.InRange b → s.InRange c →
    exec (.or a b c) s =
      .next { s with
        regs := s.regs.set a.val (s.value b ||| s.value c) a.isLt, pc := s.pc + 4, runState := .running }

/-- R138: `not` writes the 15-bit complement, 32767 - B. -/
def Obligations.NotWritesFifteenBitComplement : Prop :=
  HasFormatF2DV 14 .not ∧
  ∀ a b s, s.InRange b →
    0x7FFF#16 ^^^ s.value b = BitVec.ofNat 16 (32767 - (s.value b).toNat) ∧
    exec (.not a b) s =
      .next { s with
        regs := s.regs.set a.val (0x7FFF#16 ^^^ s.value b) a.isLt, pc := s.pc + 3, runState := .running }

/-- R170: `rmem` copies a memory word below 32768, and faults beyond MEM_LEN or on a larger word, in that order. -/
def Obligations.RmemReadsOrFaults : Prop :=
  HasFormatF2DV 15 .rmem ∧
  ∀ a b s,
    (s.cfg.memLen ≤ (s.value b).toNat →
      exec (.rmem a b) s = .next (s.takeFault .memoryOutOfBounds (s.value b))) ∧
    ((s.value b).toNat < s.cfg.memLen → 32768 ≤ (s.memRead (s.value b).toNat).toNat →
      exec (.rmem a b) s = .next (s.takeFault .storedValueOutOfRange (s.memRead (s.value b).toNat))) ∧
    ((s.value b).toNat < s.cfg.memLen → (s.memRead (s.value b).toNat).toNat < 32768 →
      exec (.rmem a b) s =
        .next { s with
          regs := s.regs.set a.val (s.memRead (s.value b).toNat) a.isLt
          pc := s.pc + 3, runState := .running })

/-- R171: `wmem` writes one memory word, and faults beyond MEM_LEN with nothing written. -/
def Obligations.WmemWritesOrFaults : Prop :=
  HasFormatF2VV 16 .wmem ∧
  ∀ a b s,
    (s.cfg.memLen ≤ (s.value a).toNat →
      exec (.wmem a b) s = .next (s.takeFault .memoryOutOfBounds (s.value a))) ∧
    ((s.value a).toNat < s.cfg.memLen → s.mem.wf →
      ∃ t, exec (.wmem a b) s = .next t ∧
        t = { s with mem := t.mem, pc := s.pc + 3, runState := .running } ∧
        t.memRead (s.value a).toNat = s.value b ∧
        ∀ k, k ≠ (s.value a).toNat → t.memRead k = s.memRead k)

/-- R158: `call` pushes a0 + 2 and jumps; it faults if that value is 32768 or more, and then if the stack is full. -/
def Obligations.CallPushesReturnAddress : Prop :=
  HasFormatF1V 17 .call ∧
  ∀ a s,
    (32768 ≤ s.pc.toNat + 2 →
      exec (.call a) s = .next (s.takeFault .storedValueOutOfRange (BitVec.ofNat 16 (s.pc.toNat + 2)))) ∧
    (s.pc.toNat + 2 < 32768 → s.cfg.stackDepth = some s.stack.length →
      exec (.call a) s = .next (s.takeFault .stackOverflow (s.pc + 2))) ∧
    (s.pc.toNat + 2 < 32768 → s.cfg.stackDepth ≠ some s.stack.length →
      exec (.call a) s =
        .next { s with stack := s.stack ++ [s.pc + 2], pc := s.value a, runState := .running })

/-- R159: `ret` jumps to the popped value, or ends the run cleanly on an empty stack. -/
def Obligations.RetReturnsOrEnds : Prop :=
  HasFormatF0 18 .ret ∧
  ∀ s,
    (s.stack = [] → exec .ret s = .next { s with runState := .stackEnd, pc := s.pc + 1 }) ∧
    ∀ st v, s.stack = st ++ [v] → exec .ret s = .next { s with stack := st, pc := v, runState := .running }

/-- R189: `out` appends its operand's value to the output. -/
def Obligations.OutEmitsTheValue : Prop :=
  HasFormatF1V 19 .out ∧
  ∀ a s, exec (.out a) s =
    .next { s with output := s.output ++ [s.value a], pc := s.pc + 2, runState := .running }

/-- R190: `in` reads the next character; it holds while the port is pending, faults when it is closed, and consumes and
then faults on a code point of 32768 or more. -/
def Obligations.InReadsHoldsOrFaults : Prop :=
  HasFormatF1D 20 .inChar ∧
  ∀ a s,
    (s.inBuf = [] → s.inClosed = false → exec (.inChar a) s = .next { s with runState := .waitingInput }) ∧
    (s.inBuf = [] → s.inClosed = true → exec (.inChar a) s = .next (s.takeFault .inputExhausted 0)) ∧
    (∀ c cs, s.inBuf = c :: cs → 32768 ≤ c →
      exec (.inChar a) s =
        .next { s.takeFault .storedValueOutOfRange (BitVec.ofNat 16 (c % 65536)) with
          inBuf := cs, inConsumed := s.inConsumed ++ [c] }) ∧
    ∀ c cs, s.inBuf = c :: cs → c < 32768 →
      exec (.inChar a) s =
        .next { s with
          inBuf := cs, inConsumed := s.inConsumed ++ [c]
          regs := s.regs.set a.val (BitVec.ofNat 16 c) a.isLt, pc := s.pc + 2, runState := .running }

/-- R160: `noop` changes nothing but pc. -/
def Obligations.NoopOnlyAdvances : Prop :=
  HasFormatF0 21 .noop ∧ ∀ s, exec .noop s = .next { s with pc := s.pc + 1, runState := .running }

/-! ### Encoding -/

/-- The decoder reads back every encoded well-formed instruction, whatever words follow it. -/
def Obligations.DecodeOfEncode : Prop :=
  ∀ i rest, WellFormed i → decodeWords (encode i ++ rest) = .ok (i, rest)

/-- Whatever the decoder reads is well formed, and the words it read are that instruction's encoding. -/
def Obligations.EncodeOfDecode : Prop :=
  ∀ ws i rest, decodeWords ws = .ok (i, rest) → WellFormed i ∧ ws = encode i ++ rest

/-- R74, R75: the three classes of operand words under both decodes, and a general decode's result lies below 32768. Basis
derived, because the bit columns of R76 are the spec's own inference ("The bit columns are equivalent restatements of the decimal ranges"),
stated beside. -/
def Obligations.OperandWordClasses : Prop :=
  (∀ (s : State) (w : Word),
    (w.toNat ≤ 32767 → s.decodeValue w = .ok w ∧ decodeDst w = .error (.invalidDestination w)) ∧
    (32768 ≤ w.toNat → w.toNat ≤ 32775 →
      ∃ r : Reg, r.val = w.toNat - 32768 ∧ s.decodeValue w = .ok (s.reg r) ∧ decodeDst w = .ok r) ∧
    (32776 ≤ w.toNat →
      s.decodeValue w = .error (.invalidOperand w) ∧ decodeDst w = .error (.invalidDestination w))) ∧
  (∀ w : Word,
    (w.toNat ≤ 32767 ↔ w.getLsbD 15 = false) ∧
    ((32768 ≤ w.toNat ∧ w.toNat ≤ 32775) ↔ w.getLsbD 15 = true ∧ w.extractLsb' 3 12 = 0#12) ∧
    (32776 ≤ w.toNat ↔ w.getLsbD 15 = true ∧ w.extractLsb' 3 12 ≠ 0#12) ∧
    (w.toNat ≤ 32767 → (w.extractLsb' 0 15).toNat = w.toNat) ∧
    (32768 ≤ w.toNat → w.toNat ≤ 32775 → (w.extractLsb' 0 3).toNat = w.toNat - 32768)) ∧
  ∀ (s : State) (w v : Word), s.Inv → s.decodeValue w = .ok v → v.toNat < 32768

/-- R87, which the spec marks as its own inference from R80 and R76: the words of
`set r0,65; out r0; halt`, from words and from image bytes. -/
def Obligations.WorkedEncodingDecodes : Prop :=
  encode (.set 0 (.literal 65)) ++ encode (.out (.register 0)) ++ encode .halt = [1, 32768, 65, 19, 32768, 0] ∧
  bytesOfWords [1, 32768, 65, 19, 32768, 0] =
    [0x01, 0x00, 0x00, 0x80, 0x41, 0x00, 0x13, 0x00, 0x00, 0x80, 0x00, 0x00] ∧
  decodeBytes [0x01, 0x00, 0x00, 0x80, 0x41, 0x00] = .ok (.set 0 (.literal 65), []) ∧
  decodeWords [19, 32768, 0] = .ok (.out (.register 0), [0]) ∧ decodeWords [0] = .ok (.halt, [])

/-! ### The step -/

/-- When the words at pc are those of a well-formed instruction and a step is enabled, the step is exec of that
instruction; nothing is added around it. -/
def Obligations.StepRunsTheInstructionAtPc : Prop :=
  ∀ (s : State) (i : Instr), WellFormed i → s.enabled = true →
    (∀ k (h : k < (encode i).length),
      s.pc.toNat + k < s.cfg.memLen ∧ s.memRead (s.pc.toNat + k) = (encode i)[k]) →
    step s = exec i s

/-- R79, which the spec marks as its own inference from R71: any opcode word of 22 or more faults; it is not decoded as an
operand. -/
def Obligations.UnknownOpcodeFaults : Prop :=
  ∀ s : State, s.enabled = true → s.pc.toNat < s.cfg.memLen → 22 ≤ (s.memRead s.pc.toNat).toNat →
    step s = .next (s.takeFault .unknownOpcode (s.memRead s.pc.toNat))

/-- R55: a fetch at or beyond MEM_LEN faults with its address, for the opcode word and for each operand word. -/
def Obligations.FetchBeyondMemoryFaults : Prop :=
  (∀ s : State, s.enabled = true → s.cfg.memLen ≤ s.pc.toNat →
    step s = .next (s.takeFault .memoryOutOfBounds s.pc)) ∧
  ∀ (s : State) (i : Instr) (j : Nat), WellFormed i → s.enabled = true → j < (encode i).length →
    s.pc.toNat + j = s.cfg.memLen →
    (∀ k (h : k < (encode i).length), k < j → s.memRead (s.pc.toNat + k) = (encode i)[k]) →
    step s = .next (s.takeFault .memoryOutOfBounds (BitVec.ofNat 16 (s.pc.toNat + j)))

/-- The first failing check of the fetch and decode phases decides the step's fault and its word; nothing else of the
state changes. -/
def Obligations.FailedDecodeTakesItsFault : Prop :=
  ∀ (s : State) (e : DecodeError), s.enabled = true → decodeWords s.fetchWindow = .error e →
    step s = .next { s with
      runState := .faulted, faultPc := s.pc
      faultCode := match e with
        | .missing _ => .memoryOutOfBounds
        | .unknownOpcode _ => .unknownOpcode
        | .invalidOperand _ => .invalidOperand
        | .invalidDestination _ => .invalidDestination
      faultWord := match e with
        | .missing k => BitVec.ofNat 16 (s.pc.toNat + k)
        | .unknownOpcode w => w
        | .invalidOperand w => w
        | .invalidDestination w => w }

/-- R101: a step answers a next state exactly when CORE is RUNNING or WAITING_INPUT. -/
def Obligations.StepsAreTakenOnlyWhileRunning : Prop :=
  ∀ s : State, (∃ t, step s = .next t) ↔ s.runState = .running ∨ s.runState = .waitingInput

/-- R106: a step ends in one of four ways, each with its cause and run state: a handler that completes; `halt`, or
`pop` or `ret` on an empty stack; `in` with no input available yet; or a `raise`, by a failing check of fetch and decode
or, in states of a run, by the handler's own. -/
def Obligations.StepEndsInFourWays : Prop :=
  ∀ s t : State, step s = .next t →
    (t.runState = .running ∧ ∃ i, s.fetchDecode = .ok i ∧ exec i s = .next t ∧ t.pc = nextPc s i) ∨
    (t.runState = .halted ∧ s.fetchDecode = .ok .halt ∧ t = { s with runState := .halted, pc := s.pc + 1 }) ∨
    (t.runState = .stackEnd ∧ s.stack = [] ∧
      ((s.fetchDecode = .ok .ret ∧ t = { s with runState := .stackEnd, pc := s.pc + 1 }) ∨
        ∃ a, s.fetchDecode = .ok (.pop a) ∧ t = { s with runState := .stackEnd, pc := s.pc + 2 })) ∨
    (t.runState = .waitingInput ∧ (∃ a, s.fetchDecode = .ok (.inChar a)) ∧ s.inBuf = [] ∧ s.inClosed = false ∧
      t = { s with runState := .waitingInput }) ∨
    (t.runState = .faulted ∧
      ((∃ e, s.fetchDecode = .error e ∧ t = s.decodeFault e) ∨
        ∃ i, s.fetchDecode = .ok i ∧ exec i s = .next t ∧ (s.Inv → Raises s t.faultCode t.faultWord i)))

/-- R205: faults are precise. A step that faults leaves FAULT_PC and pc at a0, and everything else as it was. The clauses
on the input are the model's reading of R190 (log 8): unchanged, but for a character `in` rejects. -/
def Obligations.FaultsArePrecise : Prop :=
  ∀ s t : State, step s = .next t → t.runState = .faulted →
    t.faultCode ≠ .none ∧ t.faultPc = s.pc ∧ t.pc = s.pc ∧ t.regs = s.regs ∧ t.mem = s.mem ∧ t.stack = s.stack ∧
      t.output = s.output ∧ t.inClosed = s.inClosed ∧ t.cfg = s.cfg ∧
      ((t.inBuf = s.inBuf ∧ t.inConsumed = s.inConsumed) ∨
        ∃ a c, s.fetchDecode = .ok (.inChar a) ∧ 32768 ≤ c ∧ s.inBuf = c :: t.inBuf ∧
          t.inConsumed = s.inConsumed ++ [c] ∧ t.faultCode = .storedValueOutOfRange)

/-- R202, which the spec marks as its own inference from the instruction rules: in its execute phase an
instruction raises only the faults of the table, and only `halt`, `pop` and `ret` end a run cleanly. -/
def Obligations.ExecuteFaultsAreTheTables : Prop :=
  ∀ (i : Instr) (s t : State), s.Inv → WellFormed i → exec i s = .next t →
    (t.runState = .faulted → t.faultCode ∈ executeFaults i) ∧
    (t.runState = .halted → i = .halt) ∧
    (t.runState = .stackEnd → s.stack = [] ∧ (i = .ret ∨ ∃ a, i = .pop a)) ∧
    (t.runState = .waitingInput → ∃ a, i = .inChar a)

/-- R111, which the spec marks as its own inference from R100 and the instruction rules: the next pc of every
instruction, and a0 after a fault or a hold. -/
def Obligations.NextPcFollowsTheTable : Prop :=
  ∀ (i : Instr) (s t : State), exec i s = .next t →
    t.pc = if t.runState = .faulted ∨ t.runState = .waitingInput then s.pc else nextPc s i

/-! ### Invariants -/

/-- Every step keeps the invariant: registers and stack entries below 32768, pc at most 32768, memory canonical and
below MEM_LEN, the stack within STACK_DEPTH, and the fault record set exactly when FAULTED. -/
def Obligations.StepKeepsTheInvariant : Prop :=
  ∀ s t : State, s.Inv → step s = .next t → t.Inv

/-- The reset state has the invariant. -/
def Obligations.ResetHasTheInvariant : Prop := State.reset.Inv

/-- Every state a machine can reach, under any schedule of host actions, has the invariant. -/
def Obligations.ReachableStatesHaveTheInvariant : Prop := ∀ s : State, Reachable s → s.Inv

/-- R68, which the spec marks as its own inference ("No instruction can create such a word"): no step creates a memory
word of 32768 or more. -/
def Obligations.NoStepCreatesALargeWord : Prop :=
  ∀ s t : State, s.Inv → step s = .next t →
    ∀ a, 32768 ≤ (t.memRead a).toNat → t.memRead a = s.memRead a

/-! ### Frames -/

/-- The ten instructions that write one register and touch no stack or port change nothing else. -/
def Obligations.FrameOfRegisterWriters : Prop :=
  (∀ a b, WritesAtMost a (.set a b)) ∧ (∀ a b c, WritesAtMost a (.eq a b c)) ∧
  (∀ a b c, WritesAtMost a (.gt a b c)) ∧ (∀ a b c, WritesAtMost a (.add a b c)) ∧
  (∀ a b c, WritesAtMost a (.mult a b c)) ∧ (∀ a b c, WritesAtMost a (.mod a b c)) ∧
  (∀ a b c, WritesAtMost a (.and a b c)) ∧ (∀ a b c, WritesAtMost a (.or a b c)) ∧
  (∀ a b, WritesAtMost a (.not a b)) ∧ ∀ a b, WritesAtMost a (.rmem a b)

/-- `pop` changes its destination and the stack, `in` its destination and the input; each leaves everything else, but for
pc, RUN_STATE and, on a fault, the record. -/
def Obligations.FrameOfPopAndIn : Prop :=
  (∀ (a : Reg) (s t : State), exec (.pop a) s = .next t →
    SameRegsBut a s t ∧ SameMemory s t ∧ t.output = s.output ∧ SameInput s t ∧ t.cfg = s.cfg ∧
      SameRecordUnlessFaulted s t ∧ (t.runState = .faulted → SameRegs s t ∧ t.stack = s.stack) ∧
      (t.runState ≠ .faulted → t.stack = s.stack.dropLast)) ∧
  ∀ (a : Reg) (s t : State), exec (.inChar a) s = .next t →
    SameRegsBut a s t ∧ SameMemory s t ∧ t.output = s.output ∧ t.stack = s.stack ∧ t.cfg = s.cfg ∧
      t.inClosed = s.inClosed ∧ t.inConsumed ++ t.inBuf = s.inConsumed ++ s.inBuf ∧
      SameRecordUnlessFaulted s t ∧ (t.runState = .faulted ∨ t.runState = .waitingInput → SameRegs s t)

/-- `push` and `call` change only the stack, by at most one entry on top, beside pc, RUN_STATE and, on a fault, the
record. -/
def Obligations.FrameOfPushAndCall : Prop :=
  (∀ a, WritesNoRegisterOrMemory (.push a)) ∧ (∀ a, WritesNoRegisterOrMemory (.call a)) ∧
  ∀ (a : Operand) (s t : State), exec (.push a) s = .next t ∨ exec (.call a) s = .next t →
    t.output = s.output ∧ (t.runState = .faulted → t.stack = s.stack) ∧
      (t.runState ≠ .faulted → t.stack.dropLast = s.stack ∧ t.stack.length = s.stack.length + 1)

/-- `halt`, `jmp`, `jt`, `jf`, `ret`, `out` and `noop` write no register and no memory; only `ret` touches the stack and
only `out` the output. -/
def Obligations.FrameOfControlAndOut : Prop :=
  WritesNoRegisterOrMemory .halt ∧ (∀ a, WritesNoRegisterOrMemory (.jmp a)) ∧
  (∀ a b, WritesNoRegisterOrMemory (.jt a b)) ∧ (∀ a b, WritesNoRegisterOrMemory (.jf a b)) ∧
  WritesNoRegisterOrMemory .ret ∧ (∀ a, WritesNoRegisterOrMemory (.out a)) ∧ WritesNoRegisterOrMemory .noop ∧
  (∀ (i : Instr) (s t : State), (i = .halt ∨ (∃ a, i = .jmp a) ∨ (∃ a b, i = .jt a b) ∨ (∃ a b, i = .jf a b) ∨
      i = .noop ∨ ∃ a, i = .out a) →
    exec i s = .next t → t.stack = s.stack) ∧
  (∀ (i : Instr) (s t : State), (i = .halt ∨ (∃ a, i = .jmp a) ∨ (∃ a b, i = .jt a b) ∨ (∃ a b, i = .jf a b) ∨
      i = .noop ∨ i = .ret) →
    exec i s = .next t → t.output = s.output) ∧
  (∀ s t : State, exec .ret s = .next t → t.stack = s.stack.dropLast) ∧
  ∀ (a : Operand) (s t : State), exec (.out a) s = .next t → t.output = s.output ++ [s.value a]

/-- `wmem` changes no byte of memory but the two of the word at the address its first operand gives, and nothing else but
pc, RUN_STATE and, on a fault, the record; on a fault no byte at all. -/
def Obligations.FrameOfWmem : Prop :=
  ∀ (a b : Operand) (s t : State), exec (.wmem a b) s = .next t →
    (∀ k, k ≠ 2 * (s.value a).toNat → k ≠ 2 * (s.value a).toNat + 1 → t.mem.readByte k = s.mem.readByte k) ∧
    (t.runState = .faulted → SameMemory s t) ∧ SameRegs s t ∧ t.stack = s.stack ∧ t.output = s.output ∧
    SameInput s t ∧ t.cfg = s.cfg ∧ SameRecordUnlessFaulted s t

/-- No instruction writes a register but its destination operand, and one without a destination writes none. -/
def Obligations.OnlyTheDestinationIsWritten : Prop :=
  ∀ (i : Instr) (s t : State), exec i s = .next t →
    (destination i = none → SameRegs s t) ∧ ∀ d, destination i = some d → SameRegsBut d s t

/-- The input port's state reaches no instruction but `in`: with another buffer and another `closed`, every other
instruction does the same and leaves them alone. -/
def Obligations.InputReachesOnlyIn : Prop :=
  ∀ (i : Instr) (s t : State) (buf : List Nat) (closed : Bool), (∀ a, i ≠ .inChar a) → exec i s = .next t →
    exec i { s with inBuf := buf, inClosed := closed } = .next { t with inBuf := buf, inClosed := closed }

/-! ### Laws of more than one instruction -/

/-- R123, which the spec marks as its own inference from R121 and R122: `push v` followed at once by `pop rK`
leaves the stack as it was and sets rK to v; on an empty stack `pop` ends the run cleanly. -/
def Obligations.PushThenPopRestores : Prop :=
  (∀ (s t : State) (v : Word) (k : Reg), v.toNat < 32768 → s.cfg.stackDepth ≠ some s.stack.length →
    exec (.push (.literal v)) s = .next t →
    ∃ u, exec (.pop k) t = .next u ∧ u.runState = .running ∧ u.stack = s.stack ∧ u.reg k = v ∧
      SameRegsBut k s u) ∧
  ∀ (s : State) (k : Reg), s.stack = [] →
    ∃ u, exec (.pop k) s = .next u ∧ u.runState = .stackEnd ∧ u.faultCode = s.faultCode

/-- R157, which the spec marks as its own inference from R158 and R159: a `ret` executed when the stack is again what the
call made it returns to the word after the call; and nested calls return in reverse order. -/
def Obligations.CallThenRetReturns : Prop :=
  (∀ (s t u : State) (a : Operand), s.pc.toNat + 2 < 32768 → s.cfg.stackDepth ≠ some s.stack.length →
    exec (.call a) s = .next t → u.stack = t.stack →
    ∃ w, exec .ret u = .next w ∧ w.pc.toNat = s.pc.toNat + 2 ∧ w.runState = .running ∧ w.stack = s.stack) ∧
  ∀ (s t s' t' u v : State) (a b : Operand), s.pc.toNat + 2 < 32768 → s.cfg.stackDepth ≠ some s.stack.length →
    exec (.call a) s = .next t → s'.stack = t.stack →
    s'.pc.toNat + 2 < 32768 → s'.cfg.stackDepth ≠ some s'.stack.length → exec (.call b) s' = .next t' →
    u.stack = t'.stack → exec .ret u = .next v →
    v.pc.toNat = s'.pc.toNat + 2 ∧ ∀ v', v'.stack = v.stack →
      ∃ w, exec .ret v' = .next w ∧ w.pc.toNat = s.pc.toNat + 2 ∧ w.stack = s.stack

/-- R172, which the spec marks as its own inference from R170 and R171: `wmem t, v` followed by `rmem rK, t` gives rK = v. -/
def Obligations.ReadAfterWriteGivesTheValue : Prop :=
  ∀ (s t : State) (k : Reg) (addr v : Word), s.mem.wf → addr.toNat < s.cfg.memLen → v.toNat < 32768 →
    exec (.wmem (.literal addr) (.literal v)) s = .next t →
    ∃ u, exec (.rmem k (.literal addr)) t = .next u ∧ u.runState = .running ∧ u.reg k = v

/-- R140, which the spec marks as its own inference from R133 and R138: `not r1,c; add r1,r1,1; add r0,b,r1` leaves (B - C) mod 32768 in r0, for any two registers and operands the
first two instructions do not change. -/
def Obligations.SubtractionByComposition : Prop :=
  ∀ (s t u w : State) (d e : Reg) (b c : Operand), s.InRange b → s.InRange c → b ≠ .register e →
    exec (.not e c) s = .next t → exec (.add e (.register e) (.literal 1)) t = .next u →
    exec (.add d b (.register e)) u = .next w →
    (u.reg e).toNat = (32768 - (s.value c).toNat) % 32768 ∧
    (w.reg d).toNat = ((s.value b).toNat + 32768 - (s.value c).toNat) % 32768

/-- R139, which the spec marks as its own inference from R131 to R138: the integer laws of the arithmetic unit, for all values below 32768. -/
def Obligations.ArithmeticUnitLaws : Prop :=
  (∀ b c d : Word, b.toNat < 32768 → c.toNat < 32768 → d.toNat < 32768 →
    aluAdd b c = (b.toNat + c.toNat) % 32768 ∧ aluMult b c = (b.toNat * c.toNat) % 32768 ∧
    aluNot (BitVec.ofNat 16 (aluNot b)) = b.toNat ∧ aluNot b = 32767 - b.toNat ∧
    (aluEq b c = 1 ↔ b = c) ∧ (aluEq b c = 0 ↔ b ≠ c) ∧
    (aluGt b c = 1 ↔ c.toNat < b.toNat) ∧ (aluGt b c = 0 ↔ b.toNat ≤ c.toNat) ∧
    (c ≠ 0 → aluMod b c = b.toNat - c.toNat * (b.toNat / c.toNat)) ∧
    aluAnd b c = aluAnd c b ∧ aluOr b c = aluOr c b ∧
    aluAnd (BitVec.ofNat 16 (aluAnd b c)) d = aluAnd b (BitVec.ofNat 16 (aluAnd c d)) ∧
    aluOr (BitVec.ofNat 16 (aluOr b c)) d = aluOr b (BitVec.ofNat 16 (aluOr c d)) ∧
    aluAnd b c < 32768 ∧ aluOr b c < 32768) ∧
  ∀ (a : Reg) (b c : Operand) (s t : State), s.value c = 0 → exec (.mod a b c) s = .next t →
    t.runState = .faulted ∧ t.faultCode = .divideByZero

/-- R66: a word `wmem` writes is what any later fetch at that address reads, starting with the next step's and
for as long as nothing else is written there, whatever is written elsewhere; and a `wmem`, wherever it writes, its own
words included, completes as it was fetched. -/
def Obligations.WrittenCodeIsFetched : Prop :=
  (∀ (s t u : State) (a b : Operand), s.mem.wf → (s.value a).toNat < s.cfg.memLen →
    exec (.wmem a b) s = .next t → u.memRead (s.value a).toNat = t.memRead (s.value a).toNat → u.cfg = t.cfg →
    u.pc.toNat ≤ (s.value a).toNat →
    (s.value a).toNat < u.pc.toNat + 4 →
    u.fetchWindow[(s.value a).toNat - u.pc.toNat]? = some (s.value b)) ∧
  ∀ (s : State) (a b : Operand), s.mem.wf → s.enabled = true → s.fetchDecode = .ok (.wmem a b) →
    (s.value a).toNat < s.cfg.memLen →
    ∃ t, step s = .next t ∧ t.runState = .running ∧ t.pc = s.pc + 3 ∧ t.memRead (s.value a).toNat = s.value b ∧
      ∀ k, k ≠ (s.value a).toNat → t.memRead k = s.memRead k

/-- R110: a held `in` is retried: while nothing arrives each step leaves the held state, a delivered line is read
from its first character, and a closed input faults. -/
def Obligations.HeldInputIsRetried : Prop :=
  ∀ (s t : State) (a : Reg), s.enabled = true → s.fetchDecode = .ok (.inChar a) → s.inBuf = [] →
    s.inClosed = false → step s = .next t →
    t = { s with runState := .waitingInput } ∧ step t = .next t ∧
    (∀ (c : Nat) (cs : List Nat) (u : State), c < 32768 → deliverLine (c :: cs) t = .next u →
      ∃ w, step u = .next w ∧ w.runState = .running ∧ w.reg a = BitVec.ofNat 16 c ∧ w.inBuf = cs ∧
        w.pc = s.pc + 2) ∧
    ∀ u, closeInput [] t = .next u → step u = .next (u.takeFault .inputExhausted 0)

/-! ### Reset, load and the host's ports -/

/-- The reset state: R41's values. The empty image and the default parameters (MEM_LEN = L = 0, STACK_DEPTH unbounded)
are the model's choice of the image and parameters reset is stated for (log 3). -/
def Obligations.ResetState : Prop :=
  (∀ r, State.reset.reg r = 0) ∧ State.reset.pc = 0 ∧ State.reset.stack = [] ∧
  (∀ a, State.reset.memRead a = 0) ∧ State.reset.runState = .running ∧ State.reset.faultCode = .none ∧
  State.reset.faultPc = 0 ∧ State.reset.faultWord = 0 ∧ State.reset.output = [] ∧ State.reset.inBuf = [] ∧
  State.reset.inClosed = false ∧
  load none { bytes := [], readFailed := false } (State.construct none) = .next State.reset ∧
  (State.construct none).runState = .idle

/-- R245, R246: a successful load puts little-endian byte pairs at 0..L-1 and zero above, and leaves the reset state;
MEM_LEN is L unless a larger one is given, of at most 32768. -/
def Obligations.LoadGivesTheResetState : Prop :=
  ∀ (depth memLen : Option Nat) (bytes : List Byte), bytes.length % 2 = 0 → bytes.length ≤ 65536 →
    (∀ n, memLen = some n → bytes.length / 2 ≤ n ∧ n ≤ 32768) →
    ∃ t, load memLen { bytes := bytes, readFailed := false } (State.construct depth) = .next t ∧
      t.cfg = { memLen := memLen.getD (bytes.length / 2), stackDepth := depth } ∧
      (∀ k, k < bytes.length / 2 →
        (t.memRead k).toNat = (bytes.getD (2 * k) 0).toNat + 256 * (bytes.getD (2 * k + 1) 0).toNat) ∧
      (∀ k, bytes.length / 2 ≤ k → t.memRead k = 0) ∧
      (∀ r, t.reg r = 0) ∧ t.pc = 0 ∧ t.stack = [] ∧ t.runState = .running ∧ t.faultCode = .none ∧
      t.faultPc = 0 ∧ t.faultWord = 0 ∧ t.output = []

/-- R247: a failed load leaves FAULTED with its code, in the loader's order of checks, and no step is taken. What memory
holds afterwards is a free value, for every value of which this is claimed. -/
def Obligations.FailedLoadIsFaulted : Prop :=
  ∀ (memLen : Option Nat) (st : LoadStream) (s : State), s.runState = .idle →
    (st.readFailed = true ∨ st.bytes.length % 2 = 1 ∨ 65536 < st.bytes.length) →
    ∃ t, load memLen st s = .next t ∧ t.runState = .faulted ∧ t.faultPc = 0 ∧ t.faultWord = 0 ∧
      t.faultCode = (if st.readFailed = true then .loadReadFailure
        else if st.bytes.length % 2 = 1 then .loadOddLength else .loadImageTooLarge) ∧
      t.regs = s.regs ∧ t.stack = s.stack ∧ t.output = s.output ∧ ∀ u, step t ≠ .next u

/-- R248: the empty image loads with L = 0; with MEM_LEN = 0 the first step faults at address 0, and with a larger
MEM_LEN it halts. -/
def Obligations.EmptyImageLoads : Prop :=
  (∀ depth, ∃ t, load none { bytes := [], readFailed := false } (State.construct depth) = .next t ∧
    t.cfg.memLen = 0 ∧
    step t = .next { t with
      runState := .faulted, faultCode := .memoryOutOfBounds, faultPc := 0, faultWord := 0 }) ∧
  ∀ depth n, 0 < n → n ≤ 32768 →
    ∃ t, load (some n) { bytes := [], readFailed := false } (State.construct depth) = .next t ∧
      step t = .next { t with runState := .halted, pc := 1 }

/-- A delivery appends one whole line and a close sets `closed`; neither changes anything else (R184, R186). The model's
own readings: that a close may bring along what had arrived of an unfinished line, that a delivery after the close and
anything that is no whole line are refused (log 10), and that the newline is 10 (log 11). -/
def Obligations.HostInputActions : Prop :=
  (∀ (line : List Nat) (s t : State), deliverLine line s = .next t →
    t = { s with inBuf := s.inBuf ++ line } ∧ s.inClosed = false ∧ line.getLast? = some 10 ∧ 10 ∉ line.dropLast) ∧
  (∀ (line : List Nat) (s : State), s.inClosed = false → 10 ∉ line →
    deliverLine (line ++ [10]) s = .next { s with inBuf := s.inBuf ++ line ++ [10] }) ∧
  (∀ (rest : List Nat) (s : State), s.inClosed = false → 10 ∉ rest →
    closeInput rest s = .next { s with inBuf := s.inBuf ++ rest, inClosed := true }) ∧
  ∀ (rest : List Nat) (s t : State), closeInput rest s = .next t →
    t = { s with inBuf := s.inBuf ++ rest, inClosed := true }

/-- The STATUS port (R33 to R36, R200, R212): the value of each RUN_STATE and each FAULT_CODE, FAULT_PC and FAULT_WORD
as they are, and the exit status: 0 exactly after a clean stop, 1 exactly after a fault (the spec's own choice, log 13),
and absent before the end. So no two run states and no two faults read the same. -/
def Obligations.StatusPortTellsOutcomesApart : Prop :=
  (RunState.idle.code = 0 ∧ RunState.running.code = 1 ∧ RunState.waitingInput.code = 2 ∧ RunState.halted.code = 3 ∧
    RunState.stackEnd.code = 4 ∧ RunState.faulted.code = 5) ∧
  (FaultCode.none.code = 0 ∧ FaultCode.loadOddLength.code = 1 ∧ FaultCode.loadReadFailure.code = 2 ∧
    FaultCode.loadImageTooLarge.code = 3 ∧ FaultCode.invalidOperand.code = 4 ∧ FaultCode.invalidDestination.code = 5 ∧
    FaultCode.unknownOpcode.code = 6 ∧ FaultCode.inputExhausted.code = 7 ∧ FaultCode.memoryOutOfBounds.code = 8 ∧
    FaultCode.divideByZero.code = 9 ∧ FaultCode.stackOverflow.code = 10 ∧ FaultCode.storedValueOutOfRange.code = 11) ∧
  (∀ s s' : State, s.statusPort.runState = s'.statusPort.runState ↔ s.runState = s'.runState) ∧
  (∀ s s' : State, s.statusPort.faultCode = s'.statusPort.faultCode ↔ s.faultCode = s'.faultCode) ∧
  ∀ s : State,
    s.statusPort.runState = s.runState.code ∧ s.statusPort.faultCode = s.faultCode.code ∧
    s.statusPort.faultPc = s.faultPc ∧ s.statusPort.faultWord = s.faultWord ∧
    (s.statusPort.exitStatus = some 0 ↔ s.endedCleanly) ∧
    (s.statusPort.exitStatus = some 1 ↔ s.runState = .faulted) ∧
    (s.statusPort.exitStatus = none ↔ ¬ s.ended)

/-- R224: a step emits a record exactly when it continues or ends the run cleanly. The record holds a0; the mnemonic of
the opcode word at a0; for each operand word after it, a literal's value, or a register's index and its value before the
step; and the registers after the step. That a destination, too, is shown with its value is the model's choice
(log 15): a destination decode reads no register (R75). -/
def Obligations.TraceRecordsCompletedSteps : Prop :=
  ∀ s : State,
    ((∃ r, stepTrace s = some r) ↔
      ∃ t, step s = .next t ∧ t.runState ≠ .faulted ∧ t.runState ≠ .waitingInput) ∧
    ∀ r, stepTrace s = some r →
      ∃ i t, s.fetchDecode = .ok i ∧ step s = .next t ∧ r.pc = s.pc ∧
        (∀ k (h : k < (encode i).length), s.memRead (s.pc.toNat + k) = (encode i)[k]) ∧
        mnemonicTable[(s.memRead s.pc.toNat).toNat]? = some r.mnemonic ∧
        r.operands.length = i.operandWords.length ∧
        (∀ k (h : k < i.operandWords.length),
          (i.operandWords[k].toNat ≤ 32767 → r.operands[k]? = some (.literal i.operandWords[k])) ∧
          (32768 ≤ i.operandWords[k].toNat →
            ∃ x : Reg, x.val = i.operandWords[k].toNat - 32768 ∧ r.operands[k]? = some (.register x (s.reg x)))) ∧
        r.regs = t.regs
end

