-- ==== Sys2Proof/Laws/Alu.lean ====
section
/-! SUPPORT. Every result of the arithmetic unit on inputs below 32768 lies below 32768 (spec/42_alu.md R130). -/

namespace Sys2Proof.Machine

theorem truth_lt (p : Bool) : truth p < 32768 := by cases p <;> decide

theorem aluEq_lt (b c : Word) : aluEq b c < 32768 := truth_lt _

theorem aluGt_lt (b c : Word) : aluGt b c < 32768 := truth_lt _

theorem aluAdd_lt (b c : Word) : aluAdd b c < 32768 := Nat.mod_lt _ (by decide)

theorem aluMult_lt (b c : Word) : aluMult b c < 32768 := Nat.mod_lt _ (by decide)

theorem aluMod_lt {b : Word} (c : Word) (h : b.toNat < 32768) : aluMod b c < 32768 :=
  lt_of_le_of_lt (Nat.mod_le _ _) h

theorem aluAnd_lt {b : Word} (c : Word) (h : b.toNat < 32768) : aluAnd b c < 32768 := by
  rw [aluAnd, BitVec.toNat_and]
  exact lt_of_le_of_lt Nat.and_le_left h

theorem aluOr_lt {b c : Word} (hb : b.toNat < 32768) (hc : c.toNat < 32768) : aluOr b c < 32768 := by
  rw [aluOr, BitVec.toNat_or]
  exact Nat.or_lt_two_pow (n := 15) hb hc

theorem aluNot_lt {b : Word} (h : b.toNat < 32768) : aluNot b < 32768 := by
  rw [aluNot, BitVec.toNat_xor]
  exact Nat.xor_lt_two_pow (n := 15) (by decide) h

end Sys2Proof.Machine
end

