-- ==== Sys2Proof/Laws/Decode.lean ====
section
/-! SUPPORT. The operand decoder on each class of raw words (spec/30_encoding.md R76), and the six formats: what the
decoder of a format does, said once per format (R81). -/

namespace Sys2Proof

theorem Reg.encode_toNat (r : Reg) : (Reg.encode r).toNat = 32768 + r.val := by
  have := r.isLt
  simp only [Reg.encode, BitVec.toNat_ofNat]
  omega

/-- `w[2:0]` is `w - 32768` for a register reference (R76). -/
theorem regOfWord_val {w : Word} (h : 32768 ≤ w.toNat ∧ w.toNat ≤ 32775) :
    (regOfWord w).val = w.toNat - 32768 := by
  simp only [regOfWord]
  omega

@[simp] theorem regOfWord_encode (r : Reg) : regOfWord (Reg.encode r) = r := by
  have h := Reg.encode_toNat r
  have := r.isLt
  apply Fin.ext
  rw [regOfWord_val (by omega)]
  omega

/-- A register-reference word is the raw word of the register it names. -/
theorem encode_regOfWord {w : Word} (h : 32768 ≤ w.toNat ∧ w.toNat ≤ 32775) : Reg.encode (regOfWord w) = w := by
  apply BitVec.eq_of_toNat_eq
  rw [Reg.encode_toNat, regOfWord_val h]
  omega

theorem decodeDst_ok {w : Word} (h : 32768 ≤ w.toNat ∧ w.toNat ≤ 32775) :
    decodeDst w = .ok (regOfWord w) := if_pos h

theorem decodeDst_error {w : Word} (h : ¬ (32768 ≤ w.toNat ∧ w.toNat ≤ 32775)) :
    decodeDst w = .error (.invalidDestination w) := if_neg h

theorem decodeVal_literal {w : Word} (h : w.toNat ≤ 32767) : decodeVal w = .ok (.literal w) := if_pos h

theorem decodeVal_register {w : Word} (h : 32768 ≤ w.toNat ∧ w.toNat ≤ 32775) :
    decodeVal w = .ok (.register (regOfWord w)) := by
  rw [decodeVal, if_neg (by omega), if_pos h.2]

theorem decodeVal_error {w : Word} (h : ¬ w.toNat ≤ 32775) : decodeVal w = .error (.invalidOperand w) := by
  rw [decodeVal, if_neg (by omega), if_neg h]

/-- A raw word of a general operand decodes to some operand (R74). -/
theorem decodeVal_isOk {w : Word} (h : w.toNat ≤ 32775) : ∃ o, decodeVal w = .ok o := by
  by_cases hl : w.toNat ≤ 32767
  · exact ⟨_, decodeVal_literal hl⟩
  · exact ⟨_, decodeVal_register ⟨by omega, h⟩⟩

/-- A raw word of a destination decodes to some register (R75). -/
theorem decodeDst_isOk {w : Word} (h : 32768 ≤ w.toNat ∧ w.toNat ≤ 32775) : ∃ r, decodeDst w = .ok r :=
  ⟨_, decodeDst_ok h⟩

@[simp] theorem decodeDst_encode (r : Reg) : decodeDst (Reg.encode r) = .ok r := by
  have h := Reg.encode_toNat r
  have := r.isLt
  rw [decodeDst_ok (by omega), regOfWord_encode]

theorem decodeVal_encode {o : Operand} (h : o.wf = true) : decodeVal o.encode = .ok o := by
  cases o with
  | literal w =>
    simp only [Operand.wf, decide_eq_true_eq] at h
    exact decodeVal_literal (by simp only [Operand.encode]; omega)
  | register r =>
    have he := Reg.encode_toNat r
    have := r.isLt
    simp only [Operand.encode]
    rw [decodeVal_register (by omega), regOfWord_encode]

@[simp] theorem takeDst_nil (k : Nat) : takeDst k [] = .error (.missing k) := rfl

@[simp] theorem takeVal_nil (k : Nat) : takeVal k [] = .error (.missing k) := rfl

theorem takeDst_ok {w : Word} {r : Reg} (h : decodeDst w = .ok r) (k : Nat) (ws : List Word) :
    takeDst k (w :: ws) = .ok (r, ws) := by simp [takeDst, h]

theorem takeDst_error {w : Word} (h : ¬ (32768 ≤ w.toNat ∧ w.toNat ≤ 32775)) (k : Nat) (ws : List Word) :
    takeDst k (w :: ws) = .error (.invalidDestination w) := by simp [takeDst, decodeDst_error h]

theorem takeVal_ok {w : Word} {o : Operand} (h : decodeVal w = .ok o) (k : Nat) (ws : List Word) :
    takeVal k (w :: ws) = .ok (o, ws) := by simp [takeVal, h]

theorem takeVal_error {w : Word} (h : ¬ w.toNat ≤ 32775) (k : Nat) (ws : List Word) :
    takeVal k (w :: ws) = .error (.invalidOperand w) := by simp [takeVal, decodeVal_error h]

/-- What `takeDst` can do: if it answers a register, the first word is that register's raw word. -/
theorem takeDst_cases {k : Nat} {ws rest : List Word} {r : Reg} (h : takeDst k ws = .ok (r, rest)) :
    ws = Reg.encode r :: rest := by
  cases ws with
  | nil => simp at h
  | cons w ws =>
    by_cases hw : 32768 ≤ w.toNat ∧ w.toNat ≤ 32775
    · rw [takeDst_ok (decodeDst_ok hw)] at h
      obtain ⟨rfl, rfl⟩ := by simpa using h
      rw [encode_regOfWord hw]
    · rw [takeDst_error hw] at h
      cases h

/-- What `takeVal` can do: if it answers an operand, that operand is well formed and the first word is its raw word. -/
theorem takeVal_cases {k : Nat} {ws rest : List Word} {o : Operand} (h : takeVal k ws = .ok (o, rest)) :
    o.wf = true ∧ ws = o.encode :: rest := by
  cases ws with
  | nil => simp at h
  | cons w ws =>
    by_cases hl : w.toNat ≤ 32767
    · rw [takeVal_ok (decodeVal_literal hl)] at h
      obtain ⟨rfl, rfl⟩ := by simpa using h
      exact ⟨by simp only [Operand.wf, decide_eq_true_eq]; omega, rfl⟩
    · by_cases hw : 32768 ≤ w.toNat ∧ w.toNat ≤ 32775
      · rw [takeVal_ok (decodeVal_register hw)] at h
        obtain ⟨rfl, rfl⟩ := by simpa using h
        exact ⟨rfl, by rw [Operand.encode, encode_regOfWord hw]⟩
      · rw [takeVal_error (by omega)] at h
        cases h

/-! What each format's decoder can do: if it answers an instruction, its operands are well formed and their raw words are
the words read. -/

theorem decodeF1V_cases {mk : Operand → Instr} {ws rest : List Word} {i : Instr}
    (h : decodeF1V mk ws = .ok (i, rest)) : ∃ a, a.wf = true ∧ i = mk a ∧ ws = a.encode :: rest := by
  unfold decodeF1V at h
  split at h
  · next a w ha =>
    cases h
    obtain ⟨hw, he⟩ := takeVal_cases ha
    exact ⟨a, hw, rfl, he⟩
  · cases h

theorem decodeF1D_cases {mk : Reg → Instr} {ws rest : List Word} {i : Instr}
    (h : decodeF1D mk ws = .ok (i, rest)) : ∃ a, i = mk a ∧ ws = Reg.encode a :: rest := by
  unfold decodeF1D at h
  split at h
  · next a w ha =>
    cases h
    exact ⟨a, rfl, takeDst_cases ha⟩
  · cases h

theorem decodeF2DV_cases {mk : Reg → Operand → Instr} {ws rest : List Word} {i : Instr}
    (h : decodeF2DV mk ws = .ok (i, rest)) :
    ∃ a b, b.wf = true ∧ i = mk a b ∧ ws = Reg.encode a :: b.encode :: rest := by
  unfold decodeF2DV at h
  split at h
  · cases h
  · next a w ha =>
    split at h
    · cases h
    · next b w' hb =>
      cases h
      obtain ⟨hw, he⟩ := takeVal_cases hb
      exact ⟨a, b, hw, rfl, by rw [takeDst_cases ha, he]⟩

theorem decodeF2VV_cases {mk : Operand → Operand → Instr} {ws rest : List Word} {i : Instr}
    (h : decodeF2VV mk ws = .ok (i, rest)) :
    ∃ a b, a.wf = true ∧ b.wf = true ∧ i = mk a b ∧ ws = a.encode :: b.encode :: rest := by
  unfold decodeF2VV at h
  split at h
  · cases h
  · next a w ha =>
    split at h
    · cases h
    · next b w' hb =>
      cases h
      obtain ⟨hwa, hea⟩ := takeVal_cases ha
      obtain ⟨hwb, heb⟩ := takeVal_cases hb
      exact ⟨a, b, hwa, hwb, rfl, by rw [hea, heb]⟩

theorem decodeF3DVV_cases {mk : Reg → Operand → Operand → Instr} {ws rest : List Word} {i : Instr}
    (h : decodeF3DVV mk ws = .ok (i, rest)) :
    ∃ a b c, b.wf = true ∧ c.wf = true ∧ i = mk a b c ∧ ws = Reg.encode a :: b.encode :: c.encode :: rest := by
  unfold decodeF3DVV at h
  split at h
  · cases h
  · next a w ha =>
    split at h
    · cases h
    · next b w' hb =>
      split at h
      · cases h
      · next c w'' hc =>
        cases h
        obtain ⟨hwb, heb⟩ := takeVal_cases hb
        obtain ⟨hwc, hec⟩ := takeVal_cases hc
        exact ⟨a, b, c, hwb, hwc, rfl, by rw [takeDst_cases ha, heb, hec]⟩

namespace Machine

/-- The format of an opcode follows from which format decoder the opcode map gives it (F1V). -/
theorem hasFormatF1V_of {op : Word} {mk : Operand → Instr}
    (he : ∀ a, encode (mk a) = [op, a.encode]) (hd : ∀ ws, decodeOp op ws = decodeF1V mk ws) :
    HasFormatF1V op mk := by
  refine ⟨he, fun a rest ha => ?_, ?_, fun wa rest hw => ?_⟩ <;> simp only [decodeWords, hd, decodeF1V]
  · simp [takeVal_ok (decodeVal_encode ha)]
  · simp
  · simp [takeVal_error hw]

/-- The format of an opcode follows from which format decoder the opcode map gives it (F1D). -/
theorem hasFormatF1D_of {op : Word} {mk : Reg → Instr}
    (he : ∀ a, encode (mk a) = [op, Reg.encode a]) (hd : ∀ ws, decodeOp op ws = decodeF1D mk ws) :
    HasFormatF1D op mk := by
  refine ⟨he, fun a rest => ?_, ?_, fun wa rest hw => ?_⟩ <;> simp only [decodeWords, hd, decodeF1D]
  · simp [takeDst_ok (decodeDst_encode a)]
  · simp
  · simp [takeDst_error hw]

/-- The format of an opcode follows from which format decoder the opcode map gives it (F2DV). -/
theorem hasFormatF2DV_of {op : Word} {mk : Reg → Operand → Instr}
    (he : ∀ a b, encode (mk a b) = [op, Reg.encode a, b.encode])
    (hd : ∀ ws, decodeOp op ws = decodeF2DV mk ws) : HasFormatF2DV op mk := by
  refine ⟨he, fun a b rest hb => ?_, ?_, fun wa rest hw => ?_, fun wa hw => ?_, fun wa wb rest hw hb => ?_⟩ <;>
    simp only [decodeWords, hd, decodeF2DV]
  · simp [takeDst_ok (decodeDst_encode a), takeVal_ok (decodeVal_encode hb)]
  · simp
  · simp [takeDst_error hw]
  · simp [takeDst_ok (decodeDst_ok hw)]
  · simp [takeDst_ok (decodeDst_ok hw), takeVal_error hb]

/-- The format of an opcode follows from which format decoder the opcode map gives it (F2VV). -/
theorem hasFormatF2VV_of {op : Word} {mk : Operand → Operand → Instr}
    (he : ∀ a b, encode (mk a b) = [op, a.encode, b.encode])
    (hd : ∀ ws, decodeOp op ws = decodeF2VV mk ws) : HasFormatF2VV op mk := by
  refine ⟨he, fun a b rest ha hb => ?_, ?_, fun wa rest hw => ?_, fun wa hw => ?_, fun wa wb rest hw hb => ?_⟩ <;>
    simp only [decodeWords, hd, decodeF2VV]
  · simp [takeVal_ok (decodeVal_encode ha), takeVal_ok (decodeVal_encode hb)]
  · simp
  · simp [takeVal_error hw]
  · obtain ⟨o, ho⟩ := decodeVal_isOk hw
    simp [takeVal_ok ho]
  · obtain ⟨o, ho⟩ := decodeVal_isOk hw
    simp [takeVal_ok ho, takeVal_error hb]

/-- The format of an opcode follows from which format decoder the opcode map gives it (F3DVV). -/
theorem hasFormatF3DVV_of {op : Word} {mk : Reg → Operand → Operand → Instr}
    (he : ∀ a b c, encode (mk a b c) = [op, Reg.encode a, b.encode, c.encode])
    (hd : ∀ ws, decodeOp op ws = decodeF3DVV mk ws) : HasFormatF3DVV op mk := by
  refine ⟨he, fun a b c rest hb hc => ?_, ?_, fun wa rest hw => ?_, fun wa hw => ?_, fun wa wb rest hw hb => ?_,
    fun wa wb hw hb => ?_, fun wa wb wc rest hw hb hc => ?_⟩ <;> simp only [decodeWords, hd, decodeF3DVV]
  · simp [takeDst_ok (decodeDst_encode a), takeVal_ok (decodeVal_encode hb), takeVal_ok (decodeVal_encode hc)]
  · simp
  · simp [takeDst_error hw]
  · simp [takeDst_ok (decodeDst_ok hw)]
  · simp [takeDst_ok (decodeDst_ok hw), takeVal_error hb]
  · obtain ⟨o, ho⟩ := decodeVal_isOk hb
    simp [takeDst_ok (decodeDst_ok hw), takeVal_ok ho]
  · obtain ⟨o, ho⟩ := decodeVal_isOk hb
    simp [takeDst_ok (decodeDst_ok hw), takeVal_ok ho, takeVal_error hc]

end Machine

end Sys2Proof
end

