-- ==== Sys2Proof/Laws/Memory.lean ====
section
/-! SUPPORT. The laws of memory: a read after a write, and that every memory operation keeps the canonical form
(spec/20_memory.md R59, R62). -/

namespace Sys2Proof

theorem wordOfBytes_getLsbD (lo hi : Byte) (i : Nat) :
    (wordOfBytes lo hi).getLsbD i = if i < 8 then lo.getLsbD i else hi.getLsbD (i - 8) := by
  change BitVec.getLsbD (w := 8 + 8) (hi ++ lo) i = _
  rw [BitVec.getLsbD_append]

@[simp] theorem loByte_wordOfBytes (lo hi : Byte) : loByte (wordOfBytes lo hi) = lo := by
  ext i h
  simp [loByte, wordOfBytes_getLsbD, h]

@[simp] theorem hiByte_wordOfBytes (lo hi : Byte) : hiByte (wordOfBytes lo hi) = hi := by
  ext i h
  simp [hiByte, wordOfBytes_getLsbD, BitVec.getLsbD_eq_getElem h]

@[simp] theorem wordOfBytes_lo_hi (w : Word) : wordOfBytes (loByte w) (hiByte w) = w := by
  simp only [loByte, hiByte, wordOfBytes]
  ext i hi'
  simp only [BitVec.getElem_append, BitVec.getElem_extractLsb']
  split
  · simp [BitVec.getLsbD_eq_getElem hi']
  · next h =>
    have : 8 + (i - 8) = i := by omega
    simp [this, BitVec.getLsbD_eq_getElem hi']

/-- The word of two bytes as a number (R56, R245). -/
theorem wordOfBytes_toNat (lo hi : Byte) : (wordOfBytes lo hi).toNat = lo.toNat + 256 * hi.toNat := by
  have h1 := lo.isLt
  rw [wordOfBytes, BitVec.toNat_append, ← Nat.shiftLeft_add_eq_or_of_lt h1, Nat.shiftLeft_eq]
  omega

/-- Laying words out as bytes and reading the bytes back gives the words (R245). -/
@[simp] theorem wordsOfBytes_bytesOfWords (ws : List Word) : wordsOfBytes (bytesOfWords ws) = ws := by
  induction ws with
  | nil => rfl
  | cons w ws ih => simp [bytesOfWords, wordsOfBytes, ih]

namespace Machine

@[simp] theorem Memory.readByte_nil (a : Nat) : Memory.readByte [] a = Memory.unlisted := rfl

theorem Memory.readByte_cons (c : Host.Cell) (m : Memory) (a : Nat) :
    Memory.readByte (c :: m) a = if c.1 = a then c.2 else Memory.readByte m a := rfl

/-- A cell list none of whose keys is `a` reads as unlisted at `a`. -/
theorem Memory.readByte_of_absent {m : Memory} {a : Nat} (h : ∀ c ∈ m, c.1 ≠ a) :
    Memory.readByte m a = Memory.unlisted := by
  induction m with
  | nil => rfl
  | cons c m ih =>
    rw [Memory.readByte_cons, if_neg (h c (by simp))]
    exact ih fun d hd => h d (by simp [hd])

/-- A byte that differs from the unlisted value has a cell. -/
theorem Memory.mem_of_readByte_ne {m : Memory} {a : Nat} (h : Memory.readByte m a ≠ Memory.unlisted) :
    ∃ c ∈ m, c.1 = a := by
  by_contra hc
  exact h (Memory.readByte_of_absent fun c hm he => hc ⟨c, hm, he⟩)

/-! ### The canonical form -/

theorem Memory.wf_nil : Memory.wf [] := by simp [Memory.wf]

theorem Memory.wf_cons {c : Host.Cell} {m : Memory} :
    Memory.wf (c :: m) ↔ ((∀ d ∈ m, c.1 < d.1) ∧ c.2 ≠ Memory.unlisted) ∧ Memory.wf m := by
  simp only [Memory.wf, List.pairwise_cons, List.mem_cons, forall_eq_or_imp]
  tauto

theorem Memory.wf_consCell {a : Nat} {v : Byte} {m : Memory} (hm : Memory.wf m) (ha : ∀ d ∈ m, a < d.1) :
    Memory.wf (Memory.consCell a v m) := by
  unfold Memory.consCell
  split
  · exact hm
  · next h => exact Memory.wf_cons.2 ⟨⟨ha, h⟩, hm⟩

theorem Memory.mem_consCell {a : Nat} {v : Byte} {m : Memory} {c : Host.Cell}
    (h : c ∈ Memory.consCell a v m) : c.1 = a ∨ c ∈ m := by
  unfold Memory.consCell at h
  split at h
  · exact .inr h
  · rcases List.mem_cons.1 h with rfl | h
    · exact .inl rfl
    · exact .inr h

/-- The keys after a byte is written are old keys or the key written. -/
theorem Memory.mem_writeByte {m : Memory} {a : Nat} {v : Byte} {c : Host.Cell}
    (h : c ∈ m.writeByte a v) : c.1 = a ∨ c ∈ m := by
  induction m with
  | nil => exact Memory.mem_consCell h
  | cons d m ih =>
    obtain ⟨k, x⟩ := d
    unfold Memory.writeByte at h
    split at h
    · exact Memory.mem_consCell h
    · split at h
      · rcases Memory.mem_consCell h with h | h
        · exact .inl h
        · exact .inr (by simp [h])
      · rcases List.mem_cons.1 h with rfl | h
        · exact .inr (by simp)
        · exact (ih h).imp_right (by intro h; simp [h])

/-- Writing a byte keeps the canonical form. -/
theorem Memory.wf_writeByte {m : Memory} (hm : m.wf) (a : Nat) (v : Byte) : (m.writeByte a v).wf := by
  induction m with
  | nil => exact Memory.wf_consCell Memory.wf_nil (by simp)
  | cons d m ih =>
    obtain ⟨k, x⟩ := d
    obtain ⟨⟨hk, hx⟩, hm'⟩ := Memory.wf_cons.1 hm
    unfold Memory.writeByte
    split
    · next h =>
      refine Memory.wf_consCell hm fun d hd => ?_
      rcases List.mem_cons.1 hd with rfl | hd
      · exact h
      · exact h.trans (hk d hd)
    · next h =>
      split
      · next he => exact Memory.wf_consCell hm' fun d hd => he ▸ hk d hd
      · next he =>
        refine Memory.wf_cons.2 ⟨⟨fun d hd => ?_, hx⟩, ih hm'⟩
        rcases Memory.mem_writeByte hd with h' | h'
        · simp only [h']; omega
        · exact hk d h'

theorem Memory.wf_writeWord {m : Memory} (hm : m.wf) (a : Nat) (w : Word) : (m.writeWord a w).wf :=
  Memory.wf_writeByte (Memory.wf_writeByte hm _ _) _ _

theorem Memory.wf_writeWords {m : Memory} (hm : m.wf) (a : Nat) (ws : List Word) : (m.writeWords a ws).wf := by
  induction ws generalizing m a with
  | nil => exact hm
  | cons w ws ih => exact ih (Memory.wf_writeWord hm a w) (a + 1)

/-- The keys of a memory built from bytes lie in the range the bytes fill. -/
theorem Memory.mem_ofBytes {bs : List Byte} {a : Nat} {c : Host.Cell} (h : c ∈ Memory.ofBytes a bs) :
    a ≤ c.1 ∧ c.1 < a + bs.length := by
  induction bs generalizing a with
  | nil => simp [Memory.ofBytes] at h
  | cons b bs ih =>
    rcases Memory.mem_consCell h with h | h
    · simp [h]
    · have := ih h
      simp only [List.length_cons]
      omega

theorem Memory.wf_ofBytes (bs : List Byte) (a : Nat) : (Memory.ofBytes a bs).wf := by
  induction bs generalizing a with
  | nil => exact Memory.wf_nil
  | cons b bs ih => exact Memory.wf_consCell (ih (a + 1)) fun d hd => by have := Memory.mem_ofBytes hd; omega

/-- Reset memory is in canonical form. -/
theorem reset_mem_wf : State.reset.mem.wf := Memory.wf_nil

/-! ### Reading after writing -/

theorem Memory.readByte_consCell {m : Memory} {a : Nat} (v : Byte) (ha : ∀ d ∈ m, a < d.1) (b : Nat) :
    (Memory.consCell a v m).readByte b = if a = b then v else m.readByte b := by
  unfold Memory.consCell
  split
  · next h =>
    split
    · next he =>
      subst he h
      exact Memory.readByte_of_absent fun c hc => (ha c hc).ne'
    · rfl
  · rfl

/-- A byte read after a byte written (R59, R62). -/
theorem Memory.readByte_writeByte {m : Memory} (hm : m.wf) (a : Nat) (v : Byte) (b : Nat) :
    (m.writeByte a v).readByte b = if a = b then v else m.readByte b := by
  induction m with
  | nil => exact Memory.readByte_consCell v (by simp) b
  | cons d m ih =>
    obtain ⟨k, x⟩ := d
    obtain ⟨⟨hk, -⟩, hm'⟩ := Memory.wf_cons.1 hm
    unfold Memory.writeByte
    split
    · next h =>
      refine Memory.readByte_consCell v (fun d hd => ?_) b
      rcases List.mem_cons.1 hd with rfl | hd
      · exact h
      · exact h.trans (hk d hd)
    · split
      · next he =>
        subst he
        rw [Memory.readByte_consCell v hk b, Memory.readByte_cons]
        split <;> simp_all
      · next he =>
        rw [Memory.readByte_cons, Memory.readByte_cons, ih hm']
        split
        · next h => rw [if_neg (by simp only at h; omega)]
        · rfl

theorem Memory.readByte_consCell_of_ne {m : Memory} {a b : Nat} (v : Byte) (h : b ≠ a) :
    (Memory.consCell a v m).readByte b = m.readByte b := by
  unfold Memory.consCell
  split
  · rfl
  · rw [Memory.readByte_cons, if_neg (Ne.symm h)]

/-- Writing a byte leaves every other byte alone, whatever the form of the memory. -/
theorem Memory.readByte_writeByte_of_ne (m : Memory) {a b : Nat} (v : Byte) (h : b ≠ a) :
    (m.writeByte a v).readByte b = m.readByte b := by
  induction m with
  | nil => exact Memory.readByte_consCell_of_ne v h
  | cons d m ih =>
    obtain ⟨k, x⟩ := d
    unfold Memory.writeByte
    split
    · exact Memory.readByte_consCell_of_ne v h
    · split
      · next he => rw [Memory.readByte_consCell_of_ne v h, Memory.readByte_cons, if_neg (by simp only; omega)]
      · rw [Memory.readByte_cons, Memory.readByte_cons, ih]

/-- Writing a word leaves every byte but its own two alone, whatever the form of the memory. -/
theorem Memory.readByte_writeWord_of_ne (m : Memory) {a b : Nat} (w : Word) (h0 : b ≠ 2 * a)
    (h1 : b ≠ 2 * a + 1) : (m.writeWord a w).readByte b = m.readByte b := by
  rw [Memory.writeWord, Memory.readByte_writeByte_of_ne _ _ h1, Memory.readByte_writeByte_of_ne _ _ h0]

/-- A byte read after a word written: only the word's own two bytes change. -/
theorem Memory.readByte_writeWord {m : Memory} (hm : m.wf) (a : Nat) (w : Word) (b : Nat) :
    (m.writeWord a w).readByte b =
      if b = 2 * a then loByte w else if b = 2 * a + 1 then hiByte w else m.readByte b := by
  rw [Memory.writeWord, Memory.readByte_writeByte (Memory.wf_writeByte hm _ _), Memory.readByte_writeByte hm]
  by_cases h0 : b = 2 * a
  · rw [if_pos h0, if_neg (by omega), if_pos h0.symm]
  · by_cases h1 : b = 2 * a + 1
    · rw [if_neg h0, if_pos h1, if_pos h1.symm]
    · rw [if_neg h0, if_neg h1, if_neg (Ne.symm h1), if_neg (Ne.symm h0)]

/-- A word read after a word written (spec/20_memory.md R62). -/
theorem Memory.readWord_writeWord {m : Memory} (hm : m.wf) (a : Nat) (w : Word) (b : Nat) :
    (m.writeWord a w).readWord b = if b = a then w else m.readWord b := by
  unfold Memory.readWord
  rw [Memory.readByte_writeWord hm, Memory.readByte_writeWord hm]
  by_cases h : b = a
  · rw [if_pos h, if_pos (by omega), if_neg (by omega), if_pos (by omega), wordOfBytes_lo_hi]
  · rw [if_neg h, if_neg (by omega), if_neg (by omega), if_neg (by omega), if_neg (by omega)]

/-- A byte of a memory built from bytes (spec/70_reset_and_hazards.md R245). -/
theorem Memory.readByte_ofBytes (bs : List Byte) (a k : Nat) :
    (Memory.ofBytes a bs).readByte (a + k) = bs.getD k Memory.unlisted := by
  induction bs generalizing a k with
  | nil => rfl
  | cons b bs ih =>
    rw [Memory.ofBytes, Memory.readByte_consCell b (fun d hd => by have := Memory.mem_ofBytes hd; omega)]
    cases k with
    | zero => simp
    | succ k =>
      rw [if_neg (by omega), show a + (k + 1) = a + 1 + k by omega, ih]
      simp

/-! ### The words a step can fetch -/

/-- `fetch` reads word `k` exactly where the first `k + 1` addresses exist. -/
theorem Memory.fetch_getElem? (m : Memory) (memLen a n k : Nat) :
    (m.fetch memLen a n)[k]? = if k < n ∧ a + k < memLen then some (m.readWord (a + k)) else none := by
  induction n generalizing a k with
  | zero => simp [Memory.fetch]
  | succ n ih =>
    unfold Memory.fetch
    split
    · cases k with
      | zero => simp [*]
      | succ k =>
        rw [List.getElem?_cons_succ, ih, show a + 1 + k = a + (k + 1) by omega]
        simp
    · next h => rw [if_neg (by omega)]; rfl

theorem Memory.fetch_length (m : Memory) (memLen a n : Nat) : (m.fetch memLen a n).length = min n (memLen - a) := by
  induction n generalizing a with
  | zero => simp [Memory.fetch]
  | succ n ih =>
    unfold Memory.fetch
    split
    · rw [List.length_cons, ih]; omega
    · simp only [List.length_nil]; omega

end Machine

end Sys2Proof
end

