-- ==== Sys2Proof/Laws/State.lean ====
section
/-! SUPPORT. One lemma per field of `State` for every named update, and how the accessors see each update. A lemma file
that uses these unfolds no record update. -/

namespace Sys2Proof.Machine

/-! ### `State.setReg` -/

@[simp] theorem State.setReg_regs (s : State) (r : Reg) (v : Word) :
    (s.setReg r v).regs = s.regs.set r.val v r.isLt := rfl
@[simp] theorem State.setReg_pc (s : State) (r : Reg) (v : Word) :
    (s.setReg r v).pc = s.pc := rfl
@[simp] theorem State.setReg_stack (s : State) (r : Reg) (v : Word) :
    (s.setReg r v).stack = s.stack := rfl
@[simp] theorem State.setReg_mem (s : State) (r : Reg) (v : Word) :
    (s.setReg r v).mem = s.mem := rfl
@[simp] theorem State.setReg_runState (s : State) (r : Reg) (v : Word) :
    (s.setReg r v).runState = s.runState := rfl
@[simp] theorem State.setReg_faultCode (s : State) (r : Reg) (v : Word) :
    (s.setReg r v).faultCode = s.faultCode := rfl
@[simp] theorem State.setReg_faultPc (s : State) (r : Reg) (v : Word) :
    (s.setReg r v).faultPc = s.faultPc := rfl
@[simp] theorem State.setReg_faultWord (s : State) (r : Reg) (v : Word) :
    (s.setReg r v).faultWord = s.faultWord := rfl
@[simp] theorem State.setReg_output (s : State) (r : Reg) (v : Word) :
    (s.setReg r v).output = s.output := rfl
@[simp] theorem State.setReg_inBuf (s : State) (r : Reg) (v : Word) :
    (s.setReg r v).inBuf = s.inBuf := rfl
@[simp] theorem State.setReg_inClosed (s : State) (r : Reg) (v : Word) :
    (s.setReg r v).inClosed = s.inClosed := rfl
@[simp] theorem State.setReg_inConsumed (s : State) (r : Reg) (v : Word) :
    (s.setReg r v).inConsumed = s.inConsumed := rfl
@[simp] theorem State.setReg_cfg (s : State) (r : Reg) (v : Word) :
    (s.setReg r v).cfg = s.cfg := rfl

@[simp] theorem State.setReg_memRead (s : State) (r : Reg) (v : Word) (k : Nat) :
    (s.setReg r v).memRead k = s.memRead k := rfl
@[simp] theorem State.setReg_pcAfter (s : State) (r : Reg) (v : Word) (k : Nat) :
    (s.setReg r v).pcAfter k = s.pcAfter k := rfl

/-! ### `State.memWrite` -/

@[simp] theorem State.memWrite_regs (s : State) (a : Nat) (w : Word) :
    (s.memWrite a w).regs = s.regs := rfl
@[simp] theorem State.memWrite_pc (s : State) (a : Nat) (w : Word) :
    (s.memWrite a w).pc = s.pc := rfl
@[simp] theorem State.memWrite_stack (s : State) (a : Nat) (w : Word) :
    (s.memWrite a w).stack = s.stack := rfl
@[simp] theorem State.memWrite_mem (s : State) (a : Nat) (w : Word) :
    (s.memWrite a w).mem = s.mem.writeWord a w := rfl
@[simp] theorem State.memWrite_runState (s : State) (a : Nat) (w : Word) :
    (s.memWrite a w).runState = s.runState := rfl
@[simp] theorem State.memWrite_faultCode (s : State) (a : Nat) (w : Word) :
    (s.memWrite a w).faultCode = s.faultCode := rfl
@[simp] theorem State.memWrite_faultPc (s : State) (a : Nat) (w : Word) :
    (s.memWrite a w).faultPc = s.faultPc := rfl
@[simp] theorem State.memWrite_faultWord (s : State) (a : Nat) (w : Word) :
    (s.memWrite a w).faultWord = s.faultWord := rfl
@[simp] theorem State.memWrite_output (s : State) (a : Nat) (w : Word) :
    (s.memWrite a w).output = s.output := rfl
@[simp] theorem State.memWrite_inBuf (s : State) (a : Nat) (w : Word) :
    (s.memWrite a w).inBuf = s.inBuf := rfl
@[simp] theorem State.memWrite_inClosed (s : State) (a : Nat) (w : Word) :
    (s.memWrite a w).inClosed = s.inClosed := rfl
@[simp] theorem State.memWrite_inConsumed (s : State) (a : Nat) (w : Word) :
    (s.memWrite a w).inConsumed = s.inConsumed := rfl
@[simp] theorem State.memWrite_cfg (s : State) (a : Nat) (w : Word) :
    (s.memWrite a w).cfg = s.cfg := rfl

@[simp] theorem State.memWrite_reg (s : State) (a : Nat) (w : Word) (d : Reg) :
    (s.memWrite a w).reg d = s.reg d := rfl
@[simp] theorem State.memWrite_value (s : State) (a : Nat) (w : Word) (o : Operand) :
    (s.memWrite a w).value o = s.value o := by cases o <;> rfl
@[simp] theorem State.memWrite_pcAfter (s : State) (a : Nat) (w : Word) (k : Nat) :
    (s.memWrite a w).pcAfter k = s.pcAfter k := rfl

/-! ### `State.push` -/

@[simp] theorem State.push_regs (s : State) (v : Word) :
    (s.push v).regs = s.regs := rfl
@[simp] theorem State.push_pc (s : State) (v : Word) :
    (s.push v).pc = s.pc := rfl
@[simp] theorem State.push_stack (s : State) (v : Word) :
    (s.push v).stack = s.stack ++ [v] := rfl
@[simp] theorem State.push_mem (s : State) (v : Word) :
    (s.push v).mem = s.mem := rfl
@[simp] theorem State.push_runState (s : State) (v : Word) :
    (s.push v).runState = s.runState := rfl
@[simp] theorem State.push_faultCode (s : State) (v : Word) :
    (s.push v).faultCode = s.faultCode := rfl
@[simp] theorem State.push_faultPc (s : State) (v : Word) :
    (s.push v).faultPc = s.faultPc := rfl
@[simp] theorem State.push_faultWord (s : State) (v : Word) :
    (s.push v).faultWord = s.faultWord := rfl
@[simp] theorem State.push_output (s : State) (v : Word) :
    (s.push v).output = s.output := rfl
@[simp] theorem State.push_inBuf (s : State) (v : Word) :
    (s.push v).inBuf = s.inBuf := rfl
@[simp] theorem State.push_inClosed (s : State) (v : Word) :
    (s.push v).inClosed = s.inClosed := rfl
@[simp] theorem State.push_inConsumed (s : State) (v : Word) :
    (s.push v).inConsumed = s.inConsumed := rfl
@[simp] theorem State.push_cfg (s : State) (v : Word) :
    (s.push v).cfg = s.cfg := rfl

@[simp] theorem State.push_reg (s : State) (v : Word) (d : Reg) :
    (s.push v).reg d = s.reg d := rfl
@[simp] theorem State.push_value (s : State) (v : Word) (o : Operand) :
    (s.push v).value o = s.value o := by cases o <;> rfl
@[simp] theorem State.push_memRead (s : State) (v : Word) (k : Nat) :
    (s.push v).memRead k = s.memRead k := rfl
@[simp] theorem State.push_pcAfter (s : State) (v : Word) (k : Nat) :
    (s.push v).pcAfter k = s.pcAfter k := rfl

/-! ### `State.outPort` -/

@[simp] theorem State.outPort_regs (s : State) (v : Word) :
    (s.outPort v).regs = s.regs := rfl
@[simp] theorem State.outPort_pc (s : State) (v : Word) :
    (s.outPort v).pc = s.pc := rfl
@[simp] theorem State.outPort_stack (s : State) (v : Word) :
    (s.outPort v).stack = s.stack := rfl
@[simp] theorem State.outPort_mem (s : State) (v : Word) :
    (s.outPort v).mem = s.mem := rfl
@[simp] theorem State.outPort_runState (s : State) (v : Word) :
    (s.outPort v).runState = s.runState := rfl
@[simp] theorem State.outPort_faultCode (s : State) (v : Word) :
    (s.outPort v).faultCode = s.faultCode := rfl
@[simp] theorem State.outPort_faultPc (s : State) (v : Word) :
    (s.outPort v).faultPc = s.faultPc := rfl
@[simp] theorem State.outPort_faultWord (s : State) (v : Word) :
    (s.outPort v).faultWord = s.faultWord := rfl
@[simp] theorem State.outPort_output (s : State) (v : Word) :
    (s.outPort v).output = s.output ++ [v] := rfl
@[simp] theorem State.outPort_inBuf (s : State) (v : Word) :
    (s.outPort v).inBuf = s.inBuf := rfl
@[simp] theorem State.outPort_inClosed (s : State) (v : Word) :
    (s.outPort v).inClosed = s.inClosed := rfl
@[simp] theorem State.outPort_inConsumed (s : State) (v : Word) :
    (s.outPort v).inConsumed = s.inConsumed := rfl
@[simp] theorem State.outPort_cfg (s : State) (v : Word) :
    (s.outPort v).cfg = s.cfg := rfl

@[simp] theorem State.outPort_reg (s : State) (v : Word) (d : Reg) :
    (s.outPort v).reg d = s.reg d := rfl
@[simp] theorem State.outPort_value (s : State) (v : Word) (o : Operand) :
    (s.outPort v).value o = s.value o := by cases o <;> rfl
@[simp] theorem State.outPort_memRead (s : State) (v : Word) (k : Nat) :
    (s.outPort v).memRead k = s.memRead k := rfl
@[simp] theorem State.outPort_pcAfter (s : State) (v : Word) (k : Nat) :
    (s.outPort v).pcAfter k = s.pcAfter k := rfl

/-! ### `State.takeFault` -/

@[simp] theorem State.takeFault_regs (s : State) (e : FaultCode) (w : Word) :
    (s.takeFault e w).regs = s.regs := rfl
@[simp] theorem State.takeFault_pc (s : State) (e : FaultCode) (w : Word) :
    (s.takeFault e w).pc = s.pc := rfl
@[simp] theorem State.takeFault_stack (s : State) (e : FaultCode) (w : Word) :
    (s.takeFault e w).stack = s.stack := rfl
@[simp] theorem State.takeFault_mem (s : State) (e : FaultCode) (w : Word) :
    (s.takeFault e w).mem = s.mem := rfl
@[simp] theorem State.takeFault_runState (s : State) (e : FaultCode) (w : Word) :
    (s.takeFault e w).runState = .faulted := rfl
@[simp] theorem State.takeFault_faultCode (s : State) (e : FaultCode) (w : Word) :
    (s.takeFault e w).faultCode = e := rfl
@[simp] theorem State.takeFault_faultPc (s : State) (e : FaultCode) (w : Word) :
    (s.takeFault e w).faultPc = s.pc := rfl
@[simp] theorem State.takeFault_faultWord (s : State) (e : FaultCode) (w : Word) :
    (s.takeFault e w).faultWord = w := rfl
@[simp] theorem State.takeFault_output (s : State) (e : FaultCode) (w : Word) :
    (s.takeFault e w).output = s.output := rfl
@[simp] theorem State.takeFault_inBuf (s : State) (e : FaultCode) (w : Word) :
    (s.takeFault e w).inBuf = s.inBuf := rfl
@[simp] theorem State.takeFault_inClosed (s : State) (e : FaultCode) (w : Word) :
    (s.takeFault e w).inClosed = s.inClosed := rfl
@[simp] theorem State.takeFault_inConsumed (s : State) (e : FaultCode) (w : Word) :
    (s.takeFault e w).inConsumed = s.inConsumed := rfl
@[simp] theorem State.takeFault_cfg (s : State) (e : FaultCode) (w : Word) :
    (s.takeFault e w).cfg = s.cfg := rfl

@[simp] theorem State.takeFault_reg (s : State) (e : FaultCode) (w : Word) (d : Reg) :
    (s.takeFault e w).reg d = s.reg d := rfl
@[simp] theorem State.takeFault_value (s : State) (e : FaultCode) (w : Word) (o : Operand) :
    (s.takeFault e w).value o = s.value o := by cases o <;> rfl
@[simp] theorem State.takeFault_memRead (s : State) (e : FaultCode) (w : Word) (k : Nat) :
    (s.takeFault e w).memRead k = s.memRead k := rfl
@[simp] theorem State.takeFault_pcAfter (s : State) (e : FaultCode) (w : Word) (k : Nat) :
    (s.takeFault e w).pcAfter k = s.pcAfter k := rfl

/-! ### `State.hold` -/

@[simp] theorem State.hold_regs (s : State) :
    s.hold.regs = s.regs := rfl
@[simp] theorem State.hold_pc (s : State) :
    s.hold.pc = s.pc := rfl
@[simp] theorem State.hold_stack (s : State) :
    s.hold.stack = s.stack := rfl
@[simp] theorem State.hold_mem (s : State) :
    s.hold.mem = s.mem := rfl
@[simp] theorem State.hold_runState (s : State) :
    s.hold.runState = .waitingInput := rfl
@[simp] theorem State.hold_faultCode (s : State) :
    s.hold.faultCode = s.faultCode := rfl
@[simp] theorem State.hold_faultPc (s : State) :
    s.hold.faultPc = s.faultPc := rfl
@[simp] theorem State.hold_faultWord (s : State) :
    s.hold.faultWord = s.faultWord := rfl
@[simp] theorem State.hold_output (s : State) :
    s.hold.output = s.output := rfl
@[simp] theorem State.hold_inBuf (s : State) :
    s.hold.inBuf = s.inBuf := rfl
@[simp] theorem State.hold_inClosed (s : State) :
    s.hold.inClosed = s.inClosed := rfl
@[simp] theorem State.hold_inConsumed (s : State) :
    s.hold.inConsumed = s.inConsumed := rfl
@[simp] theorem State.hold_cfg (s : State) :
    s.hold.cfg = s.cfg := rfl

@[simp] theorem State.hold_reg (s : State) (d : Reg) :
    s.hold.reg d = s.reg d := rfl
@[simp] theorem State.hold_value (s : State) (o : Operand) :
    s.hold.value o = s.value o := by cases o <;> rfl
@[simp] theorem State.hold_memRead (s : State) (k : Nat) :
    s.hold.memRead k = s.memRead k := rfl
@[simp] theorem State.hold_pcAfter (s : State) (k : Nat) :
    s.hold.pcAfter k = s.pcAfter k := rfl

/-! ### `State.terminate` -/

@[simp] theorem State.terminate_regs (s : State) (o : RunState) (n : Nat) :
    (s.terminate o n).regs = s.regs := rfl
@[simp] theorem State.terminate_pc (s : State) (o : RunState) (n : Nat) :
    (s.terminate o n).pc = s.pcAfter n := rfl
@[simp] theorem State.terminate_stack (s : State) (o : RunState) (n : Nat) :
    (s.terminate o n).stack = s.stack := rfl
@[simp] theorem State.terminate_mem (s : State) (o : RunState) (n : Nat) :
    (s.terminate o n).mem = s.mem := rfl
@[simp] theorem State.terminate_runState (s : State) (o : RunState) (n : Nat) :
    (s.terminate o n).runState = o := rfl
@[simp] theorem State.terminate_faultCode (s : State) (o : RunState) (n : Nat) :
    (s.terminate o n).faultCode = s.faultCode := rfl
@[simp] theorem State.terminate_faultPc (s : State) (o : RunState) (n : Nat) :
    (s.terminate o n).faultPc = s.faultPc := rfl
@[simp] theorem State.terminate_faultWord (s : State) (o : RunState) (n : Nat) :
    (s.terminate o n).faultWord = s.faultWord := rfl
@[simp] theorem State.terminate_output (s : State) (o : RunState) (n : Nat) :
    (s.terminate o n).output = s.output := rfl
@[simp] theorem State.terminate_inBuf (s : State) (o : RunState) (n : Nat) :
    (s.terminate o n).inBuf = s.inBuf := rfl
@[simp] theorem State.terminate_inClosed (s : State) (o : RunState) (n : Nat) :
    (s.terminate o n).inClosed = s.inClosed := rfl
@[simp] theorem State.terminate_inConsumed (s : State) (o : RunState) (n : Nat) :
    (s.terminate o n).inConsumed = s.inConsumed := rfl
@[simp] theorem State.terminate_cfg (s : State) (o : RunState) (n : Nat) :
    (s.terminate o n).cfg = s.cfg := rfl

@[simp] theorem State.terminate_reg (s : State) (o : RunState) (n : Nat) (d : Reg) :
    (s.terminate o n).reg d = s.reg d := rfl
@[simp] theorem State.terminate_value (s : State) (e : RunState) (n : Nat) (o : Operand) :
    (s.terminate e n).value o = s.value o := by cases o <;> rfl
@[simp] theorem State.terminate_memRead (s : State) (o : RunState) (n : Nat) (k : Nat) :
    (s.terminate o n).memRead k = s.memRead k := rfl

/-! ### `State.continueAt` -/

@[simp] theorem State.continueAt_regs (s : State) (t : Word) :
    (s.continueAt t).regs = s.regs := rfl
@[simp] theorem State.continueAt_pc (s : State) (t : Word) :
    (s.continueAt t).pc = t := rfl
@[simp] theorem State.continueAt_stack (s : State) (t : Word) :
    (s.continueAt t).stack = s.stack := rfl
@[simp] theorem State.continueAt_mem (s : State) (t : Word) :
    (s.continueAt t).mem = s.mem := rfl
@[simp] theorem State.continueAt_runState (s : State) (t : Word) :
    (s.continueAt t).runState = .running := rfl
@[simp] theorem State.continueAt_faultCode (s : State) (t : Word) :
    (s.continueAt t).faultCode = s.faultCode := rfl
@[simp] theorem State.continueAt_faultPc (s : State) (t : Word) :
    (s.continueAt t).faultPc = s.faultPc := rfl
@[simp] theorem State.continueAt_faultWord (s : State) (t : Word) :
    (s.continueAt t).faultWord = s.faultWord := rfl
@[simp] theorem State.continueAt_output (s : State) (t : Word) :
    (s.continueAt t).output = s.output := rfl
@[simp] theorem State.continueAt_inBuf (s : State) (t : Word) :
    (s.continueAt t).inBuf = s.inBuf := rfl
@[simp] theorem State.continueAt_inClosed (s : State) (t : Word) :
    (s.continueAt t).inClosed = s.inClosed := rfl
@[simp] theorem State.continueAt_inConsumed (s : State) (t : Word) :
    (s.continueAt t).inConsumed = s.inConsumed := rfl
@[simp] theorem State.continueAt_cfg (s : State) (t : Word) :
    (s.continueAt t).cfg = s.cfg := rfl

@[simp] theorem State.continueAt_reg (s : State) (t : Word) (d : Reg) :
    (s.continueAt t).reg d = s.reg d := rfl
@[simp] theorem State.continueAt_value (s : State) (t : Word) (o : Operand) :
    (s.continueAt t).value o = s.value o := by cases o <;> rfl
@[simp] theorem State.continueAt_memRead (s : State) (t : Word) (k : Nat) :
    (s.continueAt t).memRead k = s.memRead k := rfl

/-! ### Reading a register after writing one (spec/10_state.md R20) -/

@[simp] theorem State.setReg_reg_self (s : State) (r : Reg) (v : Word) : (s.setReg r v).reg r = v := by
  simp [State.reg]

theorem State.setReg_reg_of_ne (s : State) {r d : Reg} (v : Word) (h : d ≠ r) :
    (s.setReg r v).reg d = s.reg d := by
  simp only [State.reg, State.setReg_regs, Fin.getElem_fin]
  exact Vector.getElem_set_ne _ _ (fun e => h (Fin.ext e.symm))

/-- The value of every register after one is written. -/
theorem State.setReg_reg (s : State) (r d : Reg) (v : Word) :
    (s.setReg r v).reg d = if d = r then v else s.reg d := by
  split
  · next h => subst h; simp
  · next h => exact s.setReg_reg_of_ne v h

/-- Two register files that agree on every register are equal. -/
theorem regs_ext {s t : State} (h : ∀ r, s.reg r = t.reg r) : s.regs = t.regs := by
  apply Vector.ext
  intro i hi
  simpa [State.reg] using h ⟨i, hi⟩

@[simp] theorem State.value_literal (s : State) (w : Word) : s.value (.literal w) = w := rfl

@[simp] theorem State.value_register (s : State) (r : Reg) : s.value (.register r) = s.reg r := rfl

@[simp] theorem State.reset_reg (r : Reg) : State.reset.reg r = 0 := by
  simp [State.reg, State.reset]

end Sys2Proof.Machine
end

