-- ==== Sys2Proof/Laws/Ops.lean ====
section
/-! SUPPORT. For each shared operation, what it can do, said once; and that every meaning answers a next state. -/

namespace Sys2Proof.Machine

/-! ### Values -/

theorem ofNat_toNat_word (w : Word) : BitVec.ofNat 16 w.toNat = w := by simp

/-- A value that passes the range check is stored whole (spec/10_state.md R25). -/
theorem toNat_ofNat_word {v : Nat} (h : v < 65536) : (BitVec.ofNat 16 v).toNat = v := by
  simp only [BitVec.toNat_ofNat]
  omega

/-! ### `StoreReg` and `StorePush` (spec/10_state.md R25, R31) -/

theorem State.rangeCheck_of_lt (s : State) {v : Nat} (t : State) (h : v < 32768) : s.rangeCheck v t = t := if_pos h

theorem State.rangeCheck_of_not_lt (s : State) {v : Nat} (t : State) (h : ¬ v < 32768) :
    s.rangeCheck v t = s.takeFault .storedValueOutOfRange (BitVec.ofNat 16 v) := if_neg h

theorem State.storeReg_of_lt (s : State) (d : Reg) {v : Nat} (n : Nat) (h : v < 32768) :
    s.storeReg d v n = (s.setReg d (BitVec.ofNat 16 v)).continueAt (s.pcAfter n) := if_pos h

theorem State.storeReg_of_not_lt (s : State) (d : Reg) {v : Nat} (n : Nat) (h : ¬ v < 32768) :
    s.storeReg d v n = s.takeFault .storedValueOutOfRange (BitVec.ofNat 16 v) := if_neg h

/-- `StoreReg` either writes the one register and continues, or faults with nothing written. -/
theorem State.storeReg_cases (s : State) (d : Reg) (v n : Nat) :
    (v < 32768 ∧ s.storeReg d v n = (s.setReg d (BitVec.ofNat 16 v)).continueAt (s.pcAfter n)) ∨
    (¬ v < 32768 ∧ s.storeReg d v n = s.takeFault .storedValueOutOfRange (BitVec.ofNat 16 v)) := by
  by_cases h : v < 32768
  · exact .inl ⟨h, s.storeReg_of_lt d n h⟩
  · exact .inr ⟨h, s.storeReg_of_not_lt d n h⟩

theorem State.stackFull_iff (s : State) : s.stackFull = true ↔ s.cfg.stackDepth = some s.stack.length := by
  unfold State.stackFull
  split
  · next h => simp [h]
  · next d h => simp [h, eq_comm]

theorem State.storePush_of_room (s : State) {v : Nat} (t : Word) (h : v < 32768)
    (hd : s.cfg.stackDepth ≠ some s.stack.length) :
    s.storePush v t = (s.push (BitVec.ofNat 16 v)).continueAt t := by
  rw [State.storePush, s.rangeCheck_of_lt _ h, if_neg (by rwa [s.stackFull_iff])]

theorem State.storePush_of_full (s : State) {v : Nat} (t : Word) (h : v < 32768)
    (hd : s.cfg.stackDepth = some s.stack.length) :
    s.storePush v t = s.takeFault .stackOverflow (BitVec.ofNat 16 v) := by
  rw [State.storePush, s.rangeCheck_of_lt _ h, if_pos (s.stackFull_iff.2 hd)]

theorem State.storePush_of_not_lt (s : State) {v : Nat} (t : Word) (h : ¬ v < 32768) :
    s.storePush v t = s.takeFault .storedValueOutOfRange (BitVec.ofNat 16 v) := if_neg h

/-- `StorePush` either pushes the one value and continues, or faults with nothing written. -/
theorem State.storePush_cases (s : State) (v : Nat) (t : Word) :
    (v < 32768 ∧ s.cfg.stackDepth ≠ some s.stack.length ∧
      s.storePush v t = (s.push (BitVec.ofNat 16 v)).continueAt t) ∨
    (v < 32768 ∧ s.cfg.stackDepth = some s.stack.length ∧
      s.storePush v t = s.takeFault .stackOverflow (BitVec.ofNat 16 v)) ∨
    (¬ v < 32768 ∧ s.storePush v t = s.takeFault .storedValueOutOfRange (BitVec.ofNat 16 v)) := by
  by_cases h : v < 32768
  · by_cases hd : s.cfg.stackDepth = some s.stack.length
    · exact .inr (.inl ⟨h, hd, s.storePush_of_full t h hd⟩)
    · exact .inl ⟨h, hd, s.storePush_of_room t h hd⟩
  · exact .inr (.inr ⟨h, s.storePush_of_not_lt t h⟩)

/-! ### `Pop` and `InPort` (spec/10_state.md R31; spec/45_io.md R183) -/

theorem State.pop_of_nil {s : State} (h : s.stack = []) : s.pop = none := by simp [State.pop, h]

theorem State.pop_of_concat {s : State} {st : List Word} {v : Word} (h : s.stack = st ++ [v]) :
    s.pop = some (v, { s with stack := st }) := by simp [State.pop, h]

/-- `Pop` answers EMPTY on the empty stack, and otherwise the last entry and the rest. -/
theorem State.pop_cases (s : State) :
    (s.stack = [] ∧ s.pop = none) ∨
    ∃ st v, s.stack = st ++ [v] ∧ s.pop = some (v, { s with stack := st }) := by
  rcases List.eq_nil_or_concat' s.stack with h | ⟨st, v, h⟩
  · exact .inl ⟨h, State.pop_of_nil h⟩
  · exact .inr ⟨st, v, h, State.pop_of_concat h⟩

theorem State.inPort_of_cons {s : State} {c : Nat} {cs : List Nat} (h : s.inBuf = c :: cs) :
    s.inPort = (.char c, { s with inBuf := cs, inConsumed := s.inConsumed ++ [c] }) := by
  simp [State.inPort, h]

theorem State.inPort_of_closed {s : State} (h : s.inBuf = []) (hc : s.inClosed = true) :
    s.inPort = (.closed, s) := by simp [State.inPort, h, hc]

theorem State.inPort_of_pending {s : State} (h : s.inBuf = []) (hc : s.inClosed = false) :
    s.inPort = (.pending, s) := by simp [State.inPort, h, hc]

/-- The three answers of the IN port. -/
theorem State.inPort_cases (s : State) :
    (∃ c cs, s.inBuf = c :: cs ∧
      s.inPort = (.char c, { s with inBuf := cs, inConsumed := s.inConsumed ++ [c] })) ∨
    (s.inBuf = [] ∧ s.inClosed = true ∧ s.inPort = (.closed, s)) ∨
    (s.inBuf = [] ∧ s.inClosed = false ∧ s.inPort = (.pending, s)) := by
  cases h : s.inBuf with
  | cons c cs => exact .inl ⟨c, cs, rfl, State.inPort_of_cons h⟩
  | nil =>
    cases hc : s.inClosed with
    | true => exact .inr (.inl ⟨rfl, rfl, State.inPort_of_closed h hc⟩)
    | false => exact .inr (.inr ⟨rfl, rfl, State.inPort_of_pending h hc⟩)

/-! ### Memory bounds -/

theorem State.inMemory_iff (s : State) (a : Nat) : s.inMemory a = true ↔ a < s.cfg.memLen := decide_eq_true_iff

/-- What `rmem` can do: beyond MEM_LEN it faults; below it, it ends in `StoreReg` of the word read
(spec/44_memory_access.md R170). -/
theorem execRmem_cases (a : Reg) (b : Operand) (s : State) :
    (s.cfg.memLen ≤ (s.value b).toNat ∧ execRmem a b s = .next (s.takeFault .memoryOutOfBounds (s.value b))) ∨
    ((s.value b).toNat < s.cfg.memLen ∧
      execRmem a b s = .next (s.storeReg a (s.memRead (s.value b).toNat).toNat 3)) := by
  by_cases h : (s.value b).toNat < s.cfg.memLen
  · exact .inr ⟨h, if_pos ((s.inMemory_iff _).2 h)⟩
  · exact .inl ⟨not_lt.1 h, if_neg fun e => h ((s.inMemory_iff _).1 e)⟩

/-- What `wmem` can do: beyond MEM_LEN it faults with nothing written; below it, it writes one word
(spec/44_memory_access.md R171). -/
theorem execWmem_cases (a b : Operand) (s : State) :
    (s.cfg.memLen ≤ (s.value a).toNat ∧ execWmem a b s = .next (s.takeFault .memoryOutOfBounds (s.value a))) ∨
    ((s.value a).toNat < s.cfg.memLen ∧
      execWmem a b s = .next ((s.memWrite (s.value a).toNat (s.value b)).continueAt (s.pcAfter 3))) := by
  by_cases h : (s.value a).toNat < s.cfg.memLen
  · exact .inr ⟨h, if_pos ((s.inMemory_iff _).2 h)⟩
  · exact .inl ⟨not_lt.1 h, if_neg fun e => h ((s.inMemory_iff _).1 e)⟩

/-! ### Meanings and steps -/

/-- Every meaning answers a next state: none faults or refuses in the sense of Host/Core.lean. -/
theorem exec_next (i : Instr) (s : State) : ∃ t, exec i s = .next t := by
  cases i <;> simp only [exec]
  case pop a =>
    rcases s.pop_cases with ⟨-, h⟩ | ⟨st, v, -, h⟩ <;> simp [execPop, h]
  case ret =>
    rcases s.pop_cases with ⟨-, h⟩ | ⟨st, v, -, h⟩ <;> simp [execRet, h]
  case inChar a =>
    rcases s.inPort_cases with ⟨c, cs, -, h⟩ | ⟨-, -, h⟩ | ⟨-, -, h⟩ <;> simp [execIn, h]
  case mod a b c => simp only [execMod]; split <;> exact ⟨_, rfl⟩
  case rmem a b => simp only [execRmem]; split <;> exact ⟨_, rfl⟩
  case wmem a b => simp only [execWmem]; split <;> exact ⟨_, rfl⟩
  all_goals exact ⟨_, rfl⟩

theorem State.enabled_iff (s : State) :
    s.enabled = true ↔ s.runState = .running ∨ s.runState = .waitingInput := by
  unfold State.enabled
  split <;> simp_all

/-- A step, where one is enabled, runs what the fetch and decode phases give. -/
theorem step_of_enabled {s : State} (h : s.enabled = true) :
    step s = match s.fetchDecode with
      | .ok i => exec i s
      | .error e => .next (s.decodeFault e) := if_pos h

theorem step_of_not_enabled {s : State} (h : ¬ s.enabled = true) :
    step s = .fault (.noStepEnabled s.runState) := if_neg h

/-- What a step can do: if it answers a next state, a step was enabled, and either an instruction ran or a check of the
fetch and decode phases failed. -/
theorem step_cases {s t : State} (h : step s = .next t) :
    s.enabled = true ∧ ((∃ i, s.fetchDecode = .ok i ∧ exec i s = .next t) ∨
      ∃ e, s.fetchDecode = .error e ∧ t = s.decodeFault e) := by
  by_cases he : s.enabled = true
  · rw [step_of_enabled he] at h
    refine ⟨he, ?_⟩
    cases hd : s.fetchDecode with
    | ok i => rw [hd] at h; exact .inl ⟨i, rfl, h⟩
    | error e => rw [hd] at h; exact .inr ⟨e, rfl, by simpa using h.symm⟩
  · rw [step_of_not_enabled he] at h
    cases h

/-- Every failing check of the fetch and decode phases takes a fault with a name and a word. -/
theorem State.decodeFault_eq (s : State) (e : DecodeError) :
    ∃ c w, c ≠ FaultCode.none ∧ s.decodeFault e = s.takeFault c w := by
  cases e <;> exact ⟨_, _, by decide, rfl⟩

theorem State.fetchDecode_of_decodeWords {s : State} {i : Instr} {rest : List Word}
    (h : decodeWords s.fetchWindow = .ok (i, rest)) : s.fetchDecode = .ok i := by
  simp [State.fetchDecode, h]

theorem State.fetchDecode_of_error {s : State} {e : DecodeError}
    (h : decodeWords s.fetchWindow = .error e) : s.fetchDecode = .error e := by
  simp [State.fetchDecode, h]

/-- If the fetch and decode phases give an instruction, so do the words at `pc`, with some words left. -/
theorem State.fetchDecode_cases {s : State} {i : Instr} (h : s.fetchDecode = .ok i) :
    ∃ rest, decodeWords s.fetchWindow = .ok (i, rest) := by
  unfold State.fetchDecode at h
  split at h
  · next j rest hj => cases h; exact ⟨rest, hj⟩
  · cases h

/-- The words a step can fetch: word `k` is there exactly where its address exists (spec/20_memory.md R55). -/
theorem State.fetchWindow_getElem? (s : State) (k : Nat) :
    s.fetchWindow[k]? =
      if k < 4 ∧ s.pc.toNat + k < s.cfg.memLen then some (s.memRead (s.pc.toNat + k)) else none :=
  Memory.fetch_getElem? _ _ _ _ _

end Sys2Proof.Machine
end

