-- ==== Sys2Proof/Laws/Exec.lean ====
section
/-! SUPPORT. Everything an instruction can do, said once: `Effect i s t` lists the shapes of the next state, and
`exec_effect` says every meaning ends in one of them. Whole-machine facts are proved by cases on it. -/

namespace Sys2Proof.Machine

/-- The shapes of an instruction's next state. -/
inductive Effect (i : Instr) (s : State) : State → Prop where
  /-- a fault, with nothing written -/
  | fault (c : FaultCode) (w : Word) (hc : c ≠ .none) : Effect i s (s.takeFault c w)
  /-- one register is written -/
  | write (d : Reg) (v : Nat) (hd : destination i = some d) (hp : ∀ a, i ≠ .pop a) (hi : ∀ a, i ≠ .inChar a)
      (hv : v < 32768) :
      Effect i s ((s.setReg d (BitVec.ofNat 16 v)).continueAt (s.pcAfter i.length))
  /-- only `pc` is written, by `jmp`, `jt`, `jf` or `noop` -/
  | jump (hi : (∃ a, i = .jmp a) ∨ (∃ a b, i = .jt a b) ∨ (∃ a b, i = .jf a b) ∨ i = .noop) :
      Effect i s (s.continueAt (nextPc s i))
  /-- `wmem` below MEM_LEN -/
  | store (a b : Operand) (hi : i = .wmem a b) (ha : (s.value a).toNat < s.cfg.memLen) :
      Effect i s ((s.memWrite (s.value a).toNat (s.value b)).continueAt (s.pcAfter 3))
  /-- `push` or `call` with room -/
  | push (v : Nat) (hi : (∃ a, i = .push a) ∨ ∃ a, i = .call a) (hv : v < 32768)
      (hd : s.cfg.stackDepth ≠ some s.stack.length) :
      Effect i s ((s.push (BitVec.ofNat 16 v)).continueAt (nextPc s i))
  /-- `pop` of an entry -/
  | pop (d : Reg) (st : List Word) (v : Word) (hi : i = .pop d) (hs : s.stack = st ++ [v]) (hv : v.toNat < 32768) :
      Effect i s ((State.setReg { s with stack := st } d v).continueAt (s.pcAfter 2))
  /-- `ret` to an entry -/
  | ret (st : List Word) (v : Word) (hi : i = .ret) (hs : s.stack = st ++ [v]) :
      Effect i s (State.continueAt { s with stack := st } v)
  /-- `halt` -/
  | halt (hi : i = .halt) : Effect i s (s.terminate .halted 1)
  /-- `pop` or `ret` on an empty stack -/
  | stackEnd (n : Nat) (hi : ((∃ d, i = .pop d) ∧ n = 2) ∨ (i = .ret ∧ n = 1)) (hs : s.stack = []) :
      Effect i s (s.terminate .stackEnd n)
  /-- `out` -/
  | out (a : Operand) (hi : i = .out a) : Effect i s ((s.outPort (s.value a)).continueAt (s.pcAfter 2))
  /-- `in` while the port is pending -/
  | hold (d : Reg) (hi : i = .inChar d) (hb : s.inBuf = []) (hc : s.inClosed = false) : Effect i s s.hold
  /-- `in` of a character below 32768 -/
  | char (d : Reg) (c : Nat) (cs : List Nat) (hi : i = .inChar d) (hb : s.inBuf = c :: cs) (hc : c < 32768) :
      Effect i s ((State.setReg { s with inBuf := cs, inConsumed := s.inConsumed ++ [c] } d
        (BitVec.ofNat 16 c)).continueAt (s.pcAfter 2))
  /-- `in` of a character of 32768 or more: consumed, then a fault -/
  | badChar (d : Reg) (c : Nat) (cs : List Nat) (hi : i = .inChar d) (hb : s.inBuf = c :: cs) (hc : ¬ c < 32768) :
      Effect i s (State.takeFault { s with inBuf := cs, inConsumed := s.inConsumed ++ [c] } .storedValueOutOfRange
        (BitVec.ofNat 16 c))

theorem testNonzero_iff (v : Word) : testNonzero v = true ↔ v ≠ 0 := by
  simp [testNonzero, ← BitVec.toNat_inj]

/-- `StoreReg` at the end of an instruction that writes its destination only. -/
theorem storeReg_effect {i : Instr} {s : State} {d : Reg} (v : Nat) (hd : destination i = some d)
    (hp : ∀ a, i ≠ .pop a) (hi : ∀ a, i ≠ .inChar a) : Effect i s (s.storeReg d v i.length) := by
  rcases s.storeReg_cases d v i.length with ⟨hv, h⟩ | ⟨-, h⟩ <;> rw [h]
  · exact .write d v hd hp hi hv
  · exact .fault _ _ (by decide)

theorem storePush_effect {i : Instr} {s : State} (v : Nat) (hi : (∃ a, i = .push a) ∨ ∃ a, i = .call a) :
    Effect i s (s.storePush v (nextPc s i)) := by
  rcases s.storePush_cases v (nextPc s i) with ⟨hv, hd, h⟩ | ⟨-, -, h⟩ | ⟨-, h⟩ <;> rw [h]
  · exact .push v hi hv hd
  · exact .fault _ _ (by decide)
  · exact .fault _ _ (by decide)

/-- Every meaning ends in one of the shapes of `Effect`. -/
theorem exec_effect {i : Instr} {s t : State} (h : exec i s = .next t) : Effect i s t := by
  cases i with
  | halt => cases h; exact .halt rfl
  | set a b => cases h; exact storeReg_effect _ rfl (by simp) (by simp)
  | push a => cases h; exact storePush_effect _ (.inl ⟨a, rfl⟩)
  | pop a =>
    simp only [exec, execPop] at h
    rcases s.pop_cases with ⟨hs, hp⟩ | ⟨st, v, hs, hp⟩ <;> rw [hp] at h <;> cases h
    · exact .stackEnd 2 (.inl ⟨⟨a, rfl⟩, rfl⟩) hs
    · by_cases hv : v.toNat < 32768
      · rw [s.rangeCheck_of_lt _ hv]
        exact .pop a st v rfl hs hv
      · rw [s.rangeCheck_of_not_lt _ hv]
        exact .fault _ _ (by decide)
  | eq a b c => cases h; exact storeReg_effect _ rfl (by simp) (by simp)
  | gt a b c => cases h; exact storeReg_effect _ rfl (by simp) (by simp)
  | jmp a => cases h; exact .jump (.inl ⟨a, rfl⟩)
  | jt a b =>
    have e : exec (.jt a b) s = .next (s.continueAt (nextPc s (.jt a b))) := by
      simp only [exec, execJt, nextPc, testNonzero_iff]
      rfl
    cases e.symm.trans h
    exact .jump (.inr (.inl ⟨a, b, rfl⟩))
  | jf a b =>
    have e : exec (.jf a b) s = .next (s.continueAt (nextPc s (.jf a b))) := by
      simp only [exec, execJf, nextPc, testNonzero_iff, ne_eq, ite_not]
      rfl
    cases e.symm.trans h
    exact .jump (.inr (.inr (.inl ⟨a, b, rfl⟩)))
  | add a b c => cases h; exact storeReg_effect _ rfl (by simp) (by simp)
  | mult a b c => cases h; exact storeReg_effect _ rfl (by simp) (by simp)
  | mod a b c =>
    simp only [exec, execMod] at h
    split at h <;> cases h
    · exact .fault _ _ (by decide)
    · exact storeReg_effect _ rfl (by simp) (by simp)
  | and a b c => cases h; exact storeReg_effect _ rfl (by simp) (by simp)
  | or a b c => cases h; exact storeReg_effect _ rfl (by simp) (by simp)
  | not a b => cases h; exact storeReg_effect _ rfl (by simp) (by simp)
  | rmem a b =>
    rcases execRmem_cases a b s with ⟨-, e⟩ | ⟨-, e⟩ <;> cases e.symm.trans h
    · exact .fault _ _ (by decide)
    · exact storeReg_effect _ rfl (by simp) (by simp)
  | wmem a b =>
    rcases execWmem_cases a b s with ⟨-, e⟩ | ⟨ha, e⟩ <;> cases e.symm.trans h
    · exact .fault _ _ (by decide)
    · exact .store a b rfl ha
  | call a => cases h; exact storePush_effect _ (.inr ⟨a, rfl⟩)
  | ret =>
    simp only [exec, execRet] at h
    rcases s.pop_cases with ⟨hs, hp⟩ | ⟨st, v, hs, hp⟩ <;> rw [hp] at h <;> cases h
    · exact .stackEnd 1 (.inr ⟨rfl, rfl⟩) hs
    · exact .ret st v rfl hs
  | out a => cases h; exact .out a rfl
  | inChar a =>
    simp only [exec, execIn] at h
    rcases s.inPort_cases with ⟨c, cs, hb, hp⟩ | ⟨-, -, hp⟩ | ⟨hb, hc, hp⟩ <;> rw [hp] at h <;> cases h
    · rcases State.storeReg_cases { s with inBuf := cs, inConsumed := s.inConsumed ++ [c] } a c 2 with
        ⟨hv, e⟩ | ⟨hv, e⟩ <;> rw [e]
      · exact .char a c cs rfl hb hv
      · exact .badChar a c cs rfl hb hv
    · exact .fault _ _ (by decide)
    · exact .hold a rfl hb hc
  | noop => cases h; exact .jump (.inr (.inr (.inr rfl)))

end Sys2Proof.Machine
end

