-- ==== Sys2Proof/Laws/PerInstr.lean ====
section
/-! SUPPORT. Statements made instruction by instruction. EncodeShape: the words of an instruction are its opcode word
(spec/30_encoding.md R80, at most 21) and then its operand words, as many as the table of R80 says (R70, R82). -/

namespace Sys2Proof.Laws.EncodeShape

/-- An instruction's words: the opcode word comes first and is at most 21, and their number is the table's length,
1 to 4. -/
def Statement (i : Instr) : Prop :=
  (encode i).head? = some i.opcode ∧ i.opcode.toNat ≤ 21 ∧ (encode i).length = i.length ∧
    1 ≤ i.length ∧ i.length ≤ maxLength

theorem halt : Statement .halt := by
  simp [Statement, encode, Instr.opcode, Instr.operandWords, Instr.length, maxLength]

theorem set (a : Reg) (b : Operand) : Statement (.set a b) := by
  simp [Statement, encode, Instr.opcode, Instr.operandWords, Instr.length, maxLength]

theorem push (a : Operand) : Statement (.push a) := by
  simp [Statement, encode, Instr.opcode, Instr.operandWords, Instr.length, maxLength]

theorem pop (a : Reg) : Statement (.pop a) := by
  simp [Statement, encode, Instr.opcode, Instr.operandWords, Instr.length, maxLength]

theorem eq (a : Reg) (b c : Operand) : Statement (.eq a b c) := by
  simp [Statement, encode, Instr.opcode, Instr.operandWords, Instr.length, maxLength]

theorem gt (a : Reg) (b c : Operand) : Statement (.gt a b c) := by
  simp [Statement, encode, Instr.opcode, Instr.operandWords, Instr.length, maxLength]

theorem jmp (a : Operand) : Statement (.jmp a) := by
  simp [Statement, encode, Instr.opcode, Instr.operandWords, Instr.length, maxLength]

theorem jt (a b : Operand) : Statement (.jt a b) := by
  simp [Statement, encode, Instr.opcode, Instr.operandWords, Instr.length, maxLength]

theorem jf (a b : Operand) : Statement (.jf a b) := by
  simp [Statement, encode, Instr.opcode, Instr.operandWords, Instr.length, maxLength]

theorem add (a : Reg) (b c : Operand) : Statement (.add a b c) := by
  simp [Statement, encode, Instr.opcode, Instr.operandWords, Instr.length, maxLength]

theorem mult (a : Reg) (b c : Operand) : Statement (.mult a b c) := by
  simp [Statement, encode, Instr.opcode, Instr.operandWords, Instr.length, maxLength]

theorem mod (a : Reg) (b c : Operand) : Statement (.mod a b c) := by
  simp [Statement, encode, Instr.opcode, Instr.operandWords, Instr.length, maxLength]

theorem and (a : Reg) (b c : Operand) : Statement (.and a b c) := by
  simp [Statement, encode, Instr.opcode, Instr.operandWords, Instr.length, maxLength]

theorem or (a : Reg) (b c : Operand) : Statement (.or a b c) := by
  simp [Statement, encode, Instr.opcode, Instr.operandWords, Instr.length, maxLength]

theorem not (a : Reg) (b : Operand) : Statement (.not a b) := by
  simp [Statement, encode, Instr.opcode, Instr.operandWords, Instr.length, maxLength]

theorem rmem (a : Reg) (b : Operand) : Statement (.rmem a b) := by
  simp [Statement, encode, Instr.opcode, Instr.operandWords, Instr.length, maxLength]

theorem wmem (a b : Operand) : Statement (.wmem a b) := by
  simp [Statement, encode, Instr.opcode, Instr.operandWords, Instr.length, maxLength]

theorem call (a : Operand) : Statement (.call a) := by
  simp [Statement, encode, Instr.opcode, Instr.operandWords, Instr.length, maxLength]

theorem ret : Statement .ret := by
  simp [Statement, encode, Instr.opcode, Instr.operandWords, Instr.length, maxLength]

theorem out (a : Operand) : Statement (.out a) := by
  simp [Statement, encode, Instr.opcode, Instr.operandWords, Instr.length, maxLength]

theorem inChar (a : Reg) : Statement (.inChar a) := by
  simp [Statement, encode, Instr.opcode, Instr.operandWords, Instr.length, maxLength]

theorem noop : Statement .noop := by
  simp [Statement, encode, Instr.opcode, Instr.operandWords, Instr.length, maxLength]

end Sys2Proof.Laws.EncodeShape
end

