-- ==== Sys2Proof/Tests/Slice0.lean ====
section
/-! SUPPORT. The model's own tests: ill-formed terms, words written out from spec/30_encoding.md, single steps from
spec/95_test_vectors.md (each test names its vector), and for every statement with hypotheses a witness that meets
them. -/

namespace Sys2Proof.Tests

open Sys2Proof Sys2Proof.Machine

/-! ### Helpers -/

/-- The reset state of a loaded image (95, Conventions): MEM_LEN = L, STACK_DEPTH unbounded. -/
def boot (ws : List Word) : State :=
  { State.reset with mem := Memory.writeWords [] 0 ws, cfg := { memLen := ws.length, stackDepth := none } }

/-- The state after one step. -/
def next (s : State) : Option State :=
  match step s with
  | .next t => some t
  | .fault _ => none
  | .refused _ => none

/-- The state after two steps. -/
def next2 (s : State) : Option State := (next s).bind next

/-- What one step does to a register and to pc. -/
def regPc (r : Reg) (s : State) : Option (Word × Word) := (next s).map fun t => (t.reg r, t.pc)

/-- The fault a step takes: its code and word, FAULT_PC, and `pc`. -/
def faultOf (s : State) : Option (FaultCode × Word × Word × Word) :=
  (next s).bind fun t =>
    if t.runState = .faulted then some (t.faultCode, t.faultWord, t.faultPc, t.pc) else none

/-- The run state, `pc` and the stack after one step. -/
def flow (s : State) : Option (RunState × Word × List Word) :=
  (next s).map fun t => (t.runState, t.pc, t.stack)

/-- The instruction the decoder reads, and the words after it. -/
def read (ws : List Word) : Option (Instr × List Word) :=
  match decodeWords ws with
  | .ok p => some p
  | .error _ => none

/-- The check the decoder fails on. -/
def fails (ws : List Word) : Option DecodeError :=
  match decodeWords ws with
  | .ok _ => none
  | .error e => some e

/-! ### WellFormed: one ill-formed term for each check -/

theorem test_wf_refuses_large_literal : (Operand.literal 32768).wf = false := by decide
theorem test_wf_accepts_boundary_operands :
    (Operand.literal 32767).wf = true ∧ (Operand.register 7).wf = true := by decide
theorem test_wf_set : ¬ WellFormed (.set 0 (.literal 32768)) := by decide
theorem test_wf_push : ¬ WellFormed (.push (.literal 65535)) := by decide
theorem test_wf_eq : ¬ WellFormed (.eq 0 (.literal 32768) (.literal 0)) ∧
    ¬ WellFormed (.eq 0 (.literal 0) (.literal 32768)) := by decide
theorem test_wf_gt : ¬ WellFormed (.gt 0 (.literal 32768) (.literal 0)) ∧
    ¬ WellFormed (.gt 0 (.literal 0) (.literal 32768)) := by decide
theorem test_wf_jmp : ¬ WellFormed (.jmp (.literal 32768)) := by decide
theorem test_wf_jt : ¬ WellFormed (.jt (.literal 32768) (.literal 0)) ∧
    ¬ WellFormed (.jt (.literal 0) (.literal 32768)) := by decide
theorem test_wf_jf : ¬ WellFormed (.jf (.literal 32768) (.literal 0)) ∧
    ¬ WellFormed (.jf (.literal 0) (.literal 32768)) := by decide
theorem test_wf_add : ¬ WellFormed (.add 0 (.literal 32768) (.literal 0)) ∧
    ¬ WellFormed (.add 0 (.literal 0) (.literal 32768)) := by decide
theorem test_wf_mult : ¬ WellFormed (.mult 0 (.literal 32768) (.literal 0)) ∧
    ¬ WellFormed (.mult 0 (.literal 0) (.literal 32768)) := by decide
theorem test_wf_mod : ¬ WellFormed (.mod 0 (.literal 32768) (.literal 0)) ∧
    ¬ WellFormed (.mod 0 (.literal 0) (.literal 32768)) := by decide
theorem test_wf_and : ¬ WellFormed (.and 0 (.literal 32768) (.literal 0)) ∧
    ¬ WellFormed (.and 0 (.literal 0) (.literal 32768)) := by decide
theorem test_wf_or : ¬ WellFormed (.or 0 (.literal 32768) (.literal 0)) ∧
    ¬ WellFormed (.or 0 (.literal 0) (.literal 32768)) := by decide
theorem test_wf_not : ¬ WellFormed (.not 0 (.literal 32768)) := by decide
theorem test_wf_rmem : ¬ WellFormed (.rmem 0 (.literal 32768)) := by decide
theorem test_wf_wmem : ¬ WellFormed (.wmem (.literal 32768) (.literal 0)) ∧
    ¬ WellFormed (.wmem (.literal 0) (.literal 32768)) := by decide
theorem test_wf_call : ¬ WellFormed (.call (.literal 32768)) := by decide
theorem test_wf_out : ¬ WellFormed (.out (.literal 32768)) := by decide

/-! ### Decode: words written out bit by bit from spec/30_encoding.md R76, R80, R81 -/

theorem test_decode_halt : read [0b0000000000000000#16] = some (.halt, []) := by decide
theorem test_decode_set :
    read [0b0000000000000001#16, 0b1000000000000011#16, 0b0111111111111111#16] =
      some (.set 3 (.literal 32767), []) := by decide
theorem test_decode_push :
    read [0b0000000000000010#16, 0b1000000000000111#16] = some (.push (.register 7), []) := by decide
theorem test_decode_pop :
    read [0b0000000000000011#16, 0b1000000000000000#16, 0b0000000000000000#16] = some (.pop 0, [0]) := by decide
theorem test_decode_eq :
    read [0b0000000000000100#16, 0b1000000000000001#16, 0b1000000000000010#16, 0b0000000000000011#16] =
      some (.eq 1 (.register 2) (.literal 3), []) := by decide
theorem test_decode_gt :
    read [0b0000000000000101#16, 0b1000000000000100#16, 0b0000000000000110#16, 0b1000000000000101#16] =
      some (.gt 4 (.literal 6) (.register 5), []) := by decide
theorem test_decode_jmp :
    read [0b0000000000000110#16, 0b0000000000001010#16] = some (.jmp (.literal 10), []) := by decide
theorem test_decode_jt :
    read [0b0000000000000111#16, 0b1000000000000110#16, 0b0000000000010100#16] =
      some (.jt (.register 6) (.literal 20), []) := by decide
theorem test_decode_jf :
    read [0b0000000000001000#16, 0b0000000000000001#16, 0b1000000000000010#16] =
      some (.jf (.literal 1) (.register 2), []) := by decide
theorem test_decode_add :
    read [0b0000000000001001#16, 0b1000000000000000#16, 0b1000000000000001#16, 0b0100000000000001#16] =
      some (.add 0 (.register 1) (.literal 16385), []) := by decide
theorem test_decode_mult :
    read [0b0000000000001010#16, 0b1000000000000010#16, 0b0000000000000111#16, 0b1000000000000011#16] =
      some (.mult 2 (.literal 7) (.register 3), []) := by decide
theorem test_decode_mod :
    read [0b0000000000001011#16, 0b1000000000000101#16, 0b1000000000000110#16, 0b0000000000000010#16] =
      some (.mod 5 (.register 6) (.literal 2), []) := by decide
theorem test_decode_and :
    read [0b0000000000001100#16, 0b1000000000000001#16, 0b0000000000001100#16, 0b0000000000001010#16] =
      some (.and 1 (.literal 12) (.literal 10), []) := by decide
theorem test_decode_or :
    read [0b0000000000001101#16, 0b1000000000000010#16, 0b1000000000000011#16, 0b1000000000000100#16] =
      some (.or 2 (.register 3) (.register 4), []) := by decide
theorem test_decode_not :
    read [0b0000000000001110#16, 0b1000000000000110#16, 0b1000000000000001#16] =
      some (.not 6 (.register 1), []) := by decide
theorem test_decode_rmem :
    read [0b0000000000001111#16, 0b1000000000000010#16, 0b0000001000000000#16] =
      some (.rmem 2 (.literal 512), []) := by decide
theorem test_decode_wmem :
    read [0b0000000000010000#16, 0b0000000000000011#16, 0b1000000000000101#16] =
      some (.wmem (.literal 3) (.register 5), []) := by decide
theorem test_decode_call :
    read [0b0000000000010001#16, 0b1000000000000100#16] = some (.call (.register 4), []) := by decide
theorem test_decode_ret : read [0b0000000000010010#16] = some (.ret, []) := by decide
theorem test_decode_out :
    read [0b0000000000010011#16, 0b0000000001000001#16] = some (.out (.literal 65), []) := by decide
theorem test_decode_in :
    read [0b0000000000010100#16, 0b1000000000000001#16] = some (.inChar 1, []) := by decide
theorem test_decode_noop :
    read [0b0000000000010101#16, 0b0000000000000000#16] = some (.noop, [0]) := by decide

/-- Vectors DS1..DS9: the first failing check in fetch order is the one reported. -/
theorem test_decode_failures :
    fails [22] = some (.unknownOpcode 22) ∧ fails [32768] = some (.unknownOpcode 32768) ∧
    fails [65535] = some (.unknownOpcode 65535) ∧ fails [] = some (.missing 0) ∧
    fails [1, 32768] = some (.missing 2) ∧ fails [1, 5, 32776] = some (.invalidDestination 5) ∧
    fails [1, 32768, 32776] = some (.invalidOperand 32776) ∧ fails [9, 5] = some (.invalidDestination 5) ∧
    fails [9, 32768, 40000, 0] = some (.invalidOperand 40000) := by decide

/-- Vectors X1..X8: both operand decoders at the ends of the three ranges, with r3 = 33 and r7 = 77. -/
theorem test_operand_classes :
    let s := (State.reset.setReg 3 33).setReg 7 77
    ((decodeVal 0).toOption = some (.literal 0) ∧ (decodeVal 32767).toOption = some (.literal 32767)) ∧
    ((s.decodeValue 32768).toOption = some 0 ∧ (s.decodeValue 32771).toOption = some 33 ∧
      (s.decodeValue 32775).toOption = some 77) ∧
    ((decodeVal 32776).toOption = none ∧ (decodeVal 65535).toOption = none) ∧
    (decodeDst 0).toOption = none ∧ (decodeDst 32767).toOption = none ∧ (decodeDst 32768).toOption = some 0 ∧
    (decodeDst 32775).toOption = some 7 ∧ (decodeDst 32776).toOption = none := by decide

/-- R87 and vector LD5: byte pairs are little-endian. -/
theorem test_image_bytes :
    wordsOfBytes [0x34, 0x12] = [4660] ∧ wordsOfBytes [0x01, 0x00, 0x00, 0x80, 0x41, 0x00] = [1, 32768, 65] := by
  decide

/-- The opcode table's numbering: `halt`, `noop` and `ret` have no operand; `jmp` reads a zero operand word; a zero word is
no destination (log 4). -/
theorem test_decodeTableWord :
    decodeTableWord 16 0 = some .halt ∧ decodeTableWord 16 21 = some .noop ∧ decodeTableWord 16 18 = some .ret ∧
    decodeTableWord 16 6 = some (.jmp (.literal 0)) ∧ decodeTableWord 32 0x80000003 = some (.pop 0) ∧
    decodeTableWord 16 3 = none ∧ decodeTableWord 64 0x0002000180000009 = some (.add 0 (.literal 1) (.literal 2)) := by
  decide

/-- A placed instruction is the next step's, from reset. -/
theorem test_withFetchWord :
    ((next (State.reset.withFetchWord 16 21)).map (·.pc)) = some 1 ∧
    ((next (State.reset.withFetchWord 64 0x0002000180000009)).map fun t => (t.reg 0, t.pc)) = some (3, 4) := by
  decide

/-! ### Single steps -/

/-- Vectors M1, M2. -/
theorem test_set :
    regPc 0 (boot [1, 32768, 65]) = some (65, 3) ∧
    regPc 1 ((boot [1, 32769, 32768]).setReg 0 100) = some (100, 3) := by decide
/-- Vectors M6, M7. -/
theorem test_push :
    flow (boot [2, 7]) = some (.running, 2, [7]) ∧
    flow ((boot [2, 32770]).setReg 2 11) = some (.running, 2, [11]) := by decide
/-- Vectors M12, M13. -/
theorem test_push_overflow :
    faultOf { boot [2, 1] with stack := [9], cfg := ⟨2, some 1⟩ } = some (.stackOverflow, 1, 0, 0) ∧
    flow { boot [2, 1] with cfg := ⟨2, some 1⟩ } = some (.running, 2, [1]) := by decide
/-- Vectors M8, M9. -/
theorem test_pop :
    regPc 0 { boot [3, 32768] with stack := [5] } = some (5, 2) ∧
    regPc 7 { boot [3, 32775] with stack := [5, 9] } = some (9, 2) ∧
    flow { boot [3, 32775] with stack := [5, 9] } = some (.running, 2, [5]) := by decide
/-- Vectors M10, M11 (Q1). -/
theorem test_pop_empty :
    flow ((boot [3, 32768]).setReg 0 4) = some (.stackEnd, 2, []) ∧
    faultOf (boot [3, 5]) = some (.invalidDestination, 5, 0, 0) := by decide
/-- Vectors A1, A2, A5. -/
theorem test_eq :
    regPc 0 (boot [4, 32768, 7, 7]) = some (1, 4) ∧ regPc 0 (boot [4, 32768, 7, 8]) = some (0, 4) ∧
    regPc 0 (boot [4, 32768, 0, 32767]) = some (0, 4) := by decide
/-- Vectors A6, A8, A9, A10. -/
theorem test_gt :
    regPc 0 (boot [5, 32768, 6, 5]) = some (1, 4) ∧ regPc 0 (boot [5, 32768, 5, 5]) = some (0, 4) ∧
    regPc 0 (boot [5, 32768, 32767, 0]) = some (1, 4) ∧ regPc 0 (boot [5, 32768, 0, 32767]) = some (0, 4) := by
  decide
/-- Vectors CT2, CT3. -/
theorem test_jmp :
    flow (boot [6, 10]) = some (.running, 10, []) ∧
    flow ((boot [6, 32768]).setReg 0 4) = some (.running, 4, []) := by decide
/-- Vectors CT4, CT5, CT10. -/
theorem test_jt :
    flow (boot [7, 1, 20]) = some (.running, 20, []) ∧ flow (boot [7, 0, 20]) = some (.running, 3, []) ∧
    faultOf (boot [7, 0, 32776]) = some (.invalidOperand, 32776, 0, 0) := by decide
/-- Vectors CT7, CT8, CT9. -/
theorem test_jf :
    flow (boot [8, 0, 20]) = some (.running, 20, []) ∧ flow (boot [8, 5, 20]) = some (.running, 3, []) ∧
    flow ((boot [8, 32770, 32771]).setReg 3 17) = some (.running, 17, []) := by decide
/-- Vectors A12, A13, A46. -/
theorem test_add :
    regPc 0 (boot [9, 32768, 32767, 1]) = some (0, 4) ∧
    regPc 0 (boot [9, 32768, 32767, 32767]) = some (32766, 4) ∧
    regPc 0 ((boot [9, 32768, 32768, 32768]).setReg 0 5) = some (10, 4) := by decide
/-- Vectors A18, A22, A24. -/
theorem test_mult :
    regPc 0 (boot [10, 32768, 32767, 32767]) = some (1, 4) ∧
    regPc 0 (boot [10, 32768, 182, 182]) = some (356, 4) ∧
    regPc 0 (boot [10, 32768, 1000, 1000]) = some (16960, 4) := by decide
/-- Vectors A25, A26, A30. -/
theorem test_mod :
    regPc 0 (boot [11, 32768, 10, 3]) = some (1, 4) ∧ regPc 0 (boot [11, 32768, 5, 7]) = some (5, 4) ∧
    regPc 0 (boot [11, 32768, 32766, 32767]) = some (32766, 4) := by decide
/-- Vectors A32, A33, A51. -/
theorem test_mod_by_zero :
    faultOf (boot [11, 32768, 7, 0]) = some (.divideByZero, 0, 0, 0) ∧
    faultOf (boot [11, 32768, 7, 32769]) = some (.divideByZero, 32769, 0, 0) ∧
    faultOf (boot [11, 3, 7, 0]) = some (.invalidDestination, 3, 0, 0) := by decide
/-- Vectors A35, A36. -/
theorem test_and :
    regPc 0 (boot [12, 32768, 12, 10]) = some (8, 4) ∧
    regPc 0 (boot [12, 32768, 32767, 21845]) = some (21845, 4) := by decide
/-- Vectors A38, A39. -/
theorem test_or :
    regPc 0 (boot [13, 32768, 12, 10]) = some (14, 4) ∧
    regPc 0 (boot [13, 32768, 21845, 10922]) = some (32767, 4) := by decide
/-- Vectors A41, A42, A48. -/
theorem test_not :
    regPc 0 (boot [14, 32768, 0]) = some (32767, 3) ∧ regPc 0 (boot [14, 32768, 32767]) = some (0, 3) ∧
    regPc 0 ((boot [14, 32768, 32768]).setReg 0 9) = some (32758, 3) := by decide
/-- Vectors W1, W2, W5. -/
theorem test_rmem :
    regPc 1 (boot [15, 32769, 3, 1234]) = some (1234, 3) ∧ regPc 0 (boot [15, 32768, 0]) = some (15, 3) ∧
    regPc 0 { boot [15, 32768, 5] with cfg := ⟨10, none⟩ } = some (0, 3) := by decide
/-- Vectors W3, W4. -/
theorem test_rmem_faults :
    faultOf (boot [15, 32768, 1]) = some (.storedValueOutOfRange, 32768, 0, 0) ∧
    faultOf (boot [15, 32768, 5000]) = some (.memoryOutOfBounds, 5000, 0, 0) := by decide
/-- Vectors W6, W10: an instruction that overwrites its own opcode word completes unchanged. -/
theorem test_wmem :
    ((next (boot [16, 3, 7, 0])).map fun t => (t.memRead 3, t.pc)) = some (7, 3) ∧
    ((next2 (boot [16, 0, 21, 0])).map fun t => (t.memRead 0, t.pc, t.runState)) = some (21, 4, .halted) := by
  decide
/-- Vectors W8, W11. -/
theorem test_wmem_faults :
    faultOf (boot [16, 100, 7]) = some (.memoryOutOfBounds, 100, 0, 0) ∧
    (next (boot [16, 5, 42, 15, 32768, 5])).bind faultOf = some (.memoryOutOfBounds, 42, 3, 3) := by decide
/-- Vectors CT13, CT12's shape at a0 = 0. -/
theorem test_call :
    flow ((boot [17, 32769]).setReg 1 50) = some (.running, 50, [2]) ∧
    flow (boot [17, 100]) = some (.running, 100, [2]) := by decide
/-- Vectors CT18, CT19, Q4. -/
theorem test_call_faults :
    faultOf ({ boot [] with pc := 32766, cfg := ⟨32768, none⟩ }.withFetchWord 16 17) =
      some (.storedValueOutOfRange, 32768, 32766, 32766) ∧
    faultOf { boot [17, 0] with stack := [3], cfg := ⟨2, some 1⟩ } = some (.stackOverflow, 2, 0, 0) ∧
    faultOf ({ boot [] with pc := 32766, stack := [1], cfg := ⟨32768, some 1⟩ }.withFetchWord 16 17) =
      some (.storedValueOutOfRange, 32768, 32766, 32766) := by decide
/-- Vectors CT15, CT16, CT22. -/
theorem test_ret :
    flow { boot [18] with stack := [12] } = some (.running, 12, []) ∧
    flow (boot [18]) = some (.stackEnd, 1, []) ∧
    (next { boot [18] with stack := [40] }).bind faultOf = some (.memoryOutOfBounds, 40, 40, 40) := by decide
/-- Vectors IO1, IO3, IO11. -/
theorem test_out :
    ((next (boot [19, 65])).map fun t => (t.output, t.pc)) = some ([65], 2) ∧
    ((next (boot [19, 32767])).map fun t => (t.output, t.pc)) = some ([32767], 2) ∧
    faultOf (boot [19, 32776]) = some (.invalidOperand, 32776, 0, 0) := by decide
/-- Vectors IO4, IO6, IO7. -/
theorem test_in :
    ((next { boot [20, 32769] with inBuf := [104, 10] }).map fun t => (t.reg 1, t.inBuf, t.pc)) =
      some (104, [10], 2) ∧
    flow (boot [20, 32769]) = some (.waitingInput, 0, []) ∧
    ((next { boot [20, 32769] with runState := .waitingInput, inBuf := [120, 10] }).map
      fun t => (t.reg 1, t.inBuf, t.runState)) = some (120, [10], .running) := by decide
/-- Vectors IO8, IO9, IO10. -/
theorem test_in_faults :
    faultOf { boot [20, 32769] with inClosed := true } = some (.inputExhausted, 0, 0, 0) ∧
    faultOf { boot [20, 32769] with inBuf := [40000] } = some (.storedValueOutOfRange, 40000, 0, 0) ∧
    ((next { boot [20, 5] with inBuf := [104] }).map fun t => (t.faultCode, t.inBuf)) =
      some (.invalidDestination, [104]) := by decide
/-- Vectors DS4 and CT17. -/
theorem test_noop :
    flow (boot [21]) = some (.running, 1, []) ∧ (next (boot [21])).bind faultOf = some (.memoryOutOfBounds, 1, 1, 1) := by
  decide
/-- Vectors CT1 (S1) and DS10. -/
theorem test_halt :
    flow (boot [0]) = some (.halted, 1, []) ∧ next { boot [0] with runState := .halted } = none := by decide
/-- Vectors DS11, DS12. -/
theorem test_empty_image :
    faultOf (boot []) = some (.memoryOutOfBounds, 0, 0, 0) ∧
    flow { boot [] with cfg := ⟨1, none⟩ } = some (.halted, 1, []) := by decide

/-- The state a load leaves. -/
def loaded (bytes : List Byte) (readFailed : Bool) : Option State :=
  match load none { bytes := bytes, readFailed := readFailed } (State.construct none) with
  | .next t => some t
  | .fault _ => none
  | .refused _ => none

/-- Vectors LD2, LD3, LD8, LD9. -/
theorem test_load :
    ((loaded [0x01, 0x00, 0x00, 0x80, 0x41, 0x00] false) = some (boot [1, 32768, 65])) ∧
    ((loaded [0x00] false).map fun t => (t.runState, t.faultCode)) = some (.faulted, .loadOddLength) ∧
    ((loaded [0x00, 0x00] true).map fun t => (t.runState, t.faultCode)) = some (.faulted, .loadReadFailure) ∧
    ((loaded [0x00, 0x00, 0x00] true).map fun t => (t.runState, t.faultCode)) =
      some (.faulted, .loadReadFailure) := by decide

/-- R224: the record of `set r0,65`, and none for a hold. -/
theorem test_trace :
    ((stepTrace (boot [1, 32768, 65])).map fun r => (r.pc, r.mnemonic, r.operands, r.regs[0])) =
      some (0, "set", [.register 0 0, .literal 65], 65) ∧
    stepTrace (boot [20, 32769]) = none := by decide

/-- R85: the source's example line. -/
theorem test_assembly :
    lineText [.set 0 (.literal 65), .out (.register 0), .halt] = "set r0,65; out r0; halt" := by decide

/-! ### Witnesses: for every statement with hypotheses, concrete values that meet them, at the ends of their ranges -/

/-- The state after an instruction. -/
def after (i : Instr) (s : State) : Option State :=
  match exec i s with
  | .next t => some t
  | .fault _ => none
  | .refused _ => none

/-- A computed step is a step. -/
theorem exists_next {s : State} {P : State → Bool} (h : (next s).map P = some true) :
    ∃ t, step s = .next t ∧ P t = true := by
  unfold next at h
  cases hs : step s <;> rw [hs] at h <;> simp_all

/-- A computed instruction is an instruction. -/
theorem exists_after {i : Instr} {s : State} {P : State → Bool} (h : (after i s).map P = some true) :
    ∃ t, exec i s = .next t ∧ P t = true := by
  unfold after at h
  cases hs : exec i s <;> rw [hs] at h <;> simp_all

/-- A state of a run that is not the reset state: values at the ends of their ranges, a full bounded stack, a memory word
of 65535, output, and characters waiting. -/
def rich : State :=
  { boot [9, 32768, 32769, 1, 65535] with
    regs := #v[32767, 0, 1, 32766, 7, 0, 0, 3]
    stack := [0, 32767]
    output := [0, 32767]
    inBuf := [40000, 10]
    cfg := ⟨6, some 2⟩ }

theorem rich_memWf : rich.mem.wf := by decide
theorem rich_memBelow : ∀ c ∈ rich.mem, c.1 < 2 * rich.cfg.memLen := by decide
theorem rich_regsBelow : ∀ r, (rich.reg r).toNat < 32768 := by decide
theorem rich_wordsBelow : ∀ v ∈ ([0, 32767] : List Word), v.toNat < 32768 := by simp
theorem rich_depth {d : Nat} (h : rich.cfg.stackDepth = some d) : d = 2 := (Option.some.inj h).symm

theorem rich_inv : rich.Inv where
  memWf := rich_memWf
  memBelow := rich_memBelow
  memLenLe := by decide
  depthPos := fun _ h => rich_depth h ▸ by decide
  regsBelow := rich_regsBelow
  stackBelow := rich_wordsBelow
  depthLe := fun _ h => rich_depth h ▸ by decide
  pcLe := by decide
  outputBelow := rich_wordsBelow
  recordEmpty := fun _ => by decide
  recordSet := fun h => by cases h

theorem witness_formats :
    (Operand.literal 0).wf = true ∧ (Operand.literal 32767).wf = true ∧ (Operand.register 7).wf = true ∧
    ¬ IsValWord 32776 ∧ ¬ IsValWord 65535 ∧ ¬ IsDstWord 32767 ∧ ¬ IsDstWord 32776 ∧ IsDstWord 32768 ∧
    IsDstWord 32775 ∧ IsValWord 0 ∧ IsValWord 32775 := by decide

/-- For SetCopiesTheValue, AndWritesBitwiseAnd, OrWritesBitwiseOr and NotWritesFifteenBitComplement. -/
theorem witness_inRange :
    rich.InRange (.literal 0) ∧ rich.InRange (.literal 32767) ∧ rich.InRange (.register 0) ∧
    rich.InRange (.register 1) := by decide

theorem witness_push :
    (rich.InRange (.register 0) ∧ rich.cfg.stackDepth = some rich.stack.length) ∧
    ((boot []).InRange (.literal 32767) ∧ (boot []).cfg.stackDepth ≠ some (boot []).stack.length) ∧
    { rich with stack := [1] }.cfg.stackDepth ≠ some { rich with stack := [1] }.stack.length := by decide

theorem witness_pop :
    (boot []).stack = [] ∧ (rich.stack = [0] ++ [32767] ∧ (32767 : Word).toNat < 32768) ∧
    { rich with stack := [0] }.stack = [] ++ [0] := by decide

/-- For JtJumpsIfNonzero and JfJumpsIfZero. -/
theorem witness_branches :
    rich.value (.register 1) = 0 ∧ rich.value (.register 2) ≠ 0 ∧ rich.value (.literal 32767) ≠ 0 := by decide

theorem witness_mod :
    (rich.InRange (.register 0) ∧ rich.InRange (.register 2) ∧ rich.value (.register 2) ≠ 0) ∧
    rich.InRange (.register 0) ∧ rich.InRange (.register 1) ∧ rich.value (.register 1) = 0 := by decide

theorem witness_rmem :
    rich.cfg.memLen ≤ (rich.value (.literal 6)).toNat ∧
    ((rich.value (.literal 4)).toNat < rich.cfg.memLen ∧
      32768 ≤ (rich.memRead (rich.value (.literal 4)).toNat).toNat) ∧
    (rich.value (.literal 5)).toNat < rich.cfg.memLen ∧
      (rich.memRead (rich.value (.literal 5)).toNat).toNat < 32768 := by decide

/-- For WmemWritesOrFaults. -/
theorem witness_wmem :
    rich.cfg.memLen ≤ (rich.value (.literal 6)).toNat ∧
    (rich.value (.literal 5)).toNat < rich.cfg.memLen ∧ rich.mem.wf := by decide

theorem witness_call :
    32768 ≤ { rich with pc := 32766 }.pc.toNat + 2 ∧
    ({ rich with pc := 32765 }.pc.toNat + 2 < 32768 ∧ rich.cfg.stackDepth = some rich.stack.length) ∧
    (boot []).pc.toNat + 2 < 32768 ∧ (boot []).cfg.stackDepth ≠ some (boot []).stack.length := by decide

theorem witness_ret : (boot []).stack = [] ∧ rich.stack = [0] ++ [32767] := by decide

theorem witness_in :
    ((boot []).inBuf = [] ∧ (boot []).inClosed = false) ∧
    ({ boot [] with inClosed := true }.inBuf = [] ∧ { boot [] with inClosed := true }.inClosed = true) ∧
    (rich.inBuf = 40000 :: [10] ∧ 32768 ≤ 40000) ∧
    ({ rich with inBuf := [32768] }.inBuf = 32768 :: [] ∧ 32768 ≤ 32768) ∧
    { rich with inBuf := [32767, 10] }.inBuf = 32767 :: [10] ∧ 32767 < 32768 := by decide

/-- For DecodeOfEncode: a well-formed instruction of each format. -/
theorem witness_wellFormed :
    WellFormed .halt ∧ WellFormed (.push (.literal 32767)) ∧ WellFormed (.inChar 7) ∧
    WellFormed (.rmem 7 (.register 7)) ∧ WellFormed (.wmem (.literal 0) (.literal 32767)) ∧
    WellFormed (.mod 7 (.literal 32767) (.register 0)) := by decide

theorem witness_encodeOfDecode : decodeWords [9, 32775, 32767, 32768, 5] =
    .ok (.add 7 (.literal 32767) (.register 0), [5]) := by rfl

theorem witness_operandWordClasses :
    ((32767 : Word).toNat ≤ 32767) ∧ (32768 ≤ (32768 : Word).toNat ∧ (32768 : Word).toNat ≤ 32775) ∧
    (32768 ≤ (32775 : Word).toNat ∧ (32775 : Word).toNat ≤ 32775) ∧ 32776 ≤ (32776 : Word).toNat ∧
    rich.Inv ∧ rich.decodeValue 32768 = .ok 32767 :=
  ⟨by decide, by decide, by decide, by decide, rich_inv, by rfl⟩

theorem witness_stepRuns :
    WellFormed (.add 0 (.register 1) (.literal 1)) ∧ rich.enabled = true ∧
    ∀ k (h : k < (encode (.add 0 (.register 1) (.literal 1))).length),
      rich.pc.toNat + k < rich.cfg.memLen ∧
      rich.memRead (rich.pc.toNat + k) = (encode (.add 0 (.register 1) (.literal 1)))[k] := by decide

theorem witness_unknownOpcode :
    (boot [22]).enabled = true ∧ (boot [22]).pc.toNat < (boot [22]).cfg.memLen ∧
    22 ≤ ((boot [22]).memRead (boot [22]).pc.toNat).toNat := by decide

theorem witness_fetchBeyond :
    ((boot []).enabled = true ∧ (boot []).cfg.memLen ≤ (boot []).pc.toNat) ∧
    (WellFormed (.set 0 (.literal 5)) ∧ (boot [1, 32768]).enabled = true ∧
      2 < (encode (.set 0 (.literal 5))).length ∧ (boot [1, 32768]).pc.toNat + 2 = (boot [1, 32768]).cfg.memLen ∧
      ∀ k (h : k < (encode (.set 0 (.literal 5))).length), k < 2 →
        (boot [1, 32768]).memRead ((boot [1, 32768]).pc.toNat + k) = (encode (.set 0 (.literal 5)))[k]) ∧
    (boot [0]).pc.toNat + 0 ≠ (boot [0]).cfg.memLen := by decide

theorem witness_failedDecode :
    (boot [1]).enabled = true ∧ decodeWords (boot [1]).fetchWindow = .error (.missing 1) ∧
    decodeWords (boot [22]).fetchWindow = .error (.unknownOpcode 22) ∧
    decodeWords (boot [2, 32776]).fetchWindow = .error (.invalidOperand 32776) ∧
    decodeWords (boot [3, 32767]).fetchWindow = .error (.invalidDestination 32767) :=
  ⟨by decide, by rfl, by rfl, by rfl, by rfl⟩

/-- A state of a run with a full stack, at a `push 0`. -/
def full : State := { boot [2, 0] with stack := [0, 32767], cfg := ⟨2, some 2⟩ }

theorem full_depth {d : Nat} (h : full.cfg.stackDepth = some d) : d = 2 := (Option.some.inj h).symm

theorem full_inv : full.Inv where
  memWf := by decide
  memBelow := by decide
  memLenLe := by decide
  depthPos := fun _ h => full_depth h ▸ by decide
  regsBelow := by decide
  stackBelow := rich_wordsBelow
  depthLe := fun _ h => full_depth h ▸ by decide
  pcLe := by decide
  outputBelow := fun _ h => by cases h
  recordEmpty := fun _ => by decide
  recordSet := fun h => by cases h

/-- For StepEndsInFourWays: each end is reached, a fault by a failing check of fetch and one of a handler. -/
theorem witness_stepEnds :
    (∃ t, step rich = .next t ∧ decide (t.runState = .running) = true) ∧
    (∃ t, step (boot [0]) = .next t ∧ decide (t.runState = .halted) = true) ∧
    (∃ t, step (boot [18]) = .next t ∧ decide (t.runState = .stackEnd) = true) ∧
    (∃ t, step (boot [3, 32768]) = .next t ∧ decide (t.runState = .stackEnd) = true) ∧
    (∃ t, step (boot [20, 32768]) = .next t ∧ decide (t.runState = .waitingInput) = true) ∧
    (∃ t, step (boot [22]) = .next t ∧ decide (t.runState = .faulted) = true) ∧
    full.Inv ∧ full.fetchDecode = .ok (.push (.literal 0)) ∧
    ∃ t, step full = .next t ∧ decide (t.faultCode = .stackOverflow ∧ t.faultWord = 0) = true :=
  ⟨exists_next (by decide), exists_next (by decide), exists_next (by decide), exists_next (by decide),
    exists_next (by decide), exists_next (by decide), full_inv, by rfl, exists_next (by decide)⟩

/-- For FaultsArePrecise: a fault that leaves the input alone, and one that has consumed a character. -/
theorem witness_faultsArePrecise :
    (∃ t, step { rich with pc := 4 } = .next t ∧ decide (t.runState = .faulted ∧ t.inBuf = rich.inBuf) = true) ∧
    ∃ t, step { boot [20, 32768] with inBuf := [40000, 10] } = .next t ∧
      decide (t.runState = .faulted ∧ t.inBuf = [10]) = true :=
  ⟨exists_next (by decide), exists_next (by decide)⟩

/-- For ExecuteFaultsAreTheTables and NextPcFollowsTheTable. -/
theorem witness_executeFaults :
    rich.Inv ∧ WellFormed (.push (.literal 1)) ∧
    (∃ t, exec (.push (.literal 1)) rich = .next t ∧ decide (t.runState = .faulted) = true) ∧
    (∃ t, exec .halt rich = .next t ∧ decide (t.runState = .halted) = true) ∧
    (∃ t, exec .ret (boot []) = .next t ∧ decide (t.runState = .stackEnd) = true) ∧
    (∃ t, exec (.inChar 0) (boot []) = .next t ∧ decide (t.runState = .waitingInput) = true) ∧
    ∃ t, exec (.jmp (.literal 32767)) rich = .next t ∧ decide (t.pc = 32767) = true :=
  ⟨rich_inv, by decide, exists_after (by decide), exists_after (by decide), exists_after (by decide),
    exists_after (by decide), exists_after (by decide)⟩

/-- For StepKeepsTheInvariant: a step from a state that is not the reset state. -/
theorem witness_invariantStep :
    rich.Inv ∧ ∃ t, step rich = .next t ∧ decide (t.reg 0 = 1 ∧ t.pc = 4) = true :=
  ⟨rich_inv, exists_next (by decide)⟩

/-- For ReachableStatesHaveTheInvariant: the empty image, loaded, waits for its first step. -/
theorem witness_reachable : Reachable State.reset :=
  .move (.construct none (fun _ h => by cases h)) (.load none { bytes := [], readFailed := false } rfl)

/-- For NoStepCreatesALargeWord: a large word survives a step. -/
theorem witness_largeWord :
    rich.Inv ∧ ∃ t, step rich = .next t ∧ decide (32768 ≤ (t.memRead 4).toNat) = true :=
  ⟨rich_inv, exists_next (by decide)⟩

/-- For the frames of the register writers: completion and, where there is one, the fault. -/
theorem witness_frameRegisters :
    (∃ t, exec (.set 0 (.register 1)) rich = .next t ∧ decide (t.reg 0 = 0) = true) ∧
    (∃ t, exec (.eq 0 (.register 1) (.literal 0)) rich = .next t ∧ decide (t.reg 0 = 1) = true) ∧
    (∃ t, exec (.gt 0 (.register 1) (.literal 0)) rich = .next t ∧ decide (t.reg 0 = 0) = true) ∧
    (∃ t, exec (.add 0 (.register 0) (.register 0)) rich = .next t ∧ decide (t.reg 0 = 32766) = true) ∧
    (∃ t, exec (.mult 0 (.register 0) (.register 0)) rich = .next t ∧ decide (t.reg 0 = 1) = true) ∧
    (∃ t, exec (.mod 0 (.register 0) (.literal 0)) rich = .next t ∧ decide (t.runState = .faulted) = true) ∧
    (∃ t, exec (.mod 0 (.register 0) (.literal 2)) rich = .next t ∧ decide (t.reg 0 = 1) = true) ∧
    (∃ t, exec (.and 0 (.register 0) (.literal 2)) rich = .next t ∧ decide (t.reg 0 = 2) = true) ∧
    (∃ t, exec (.or 1 (.register 0) (.literal 2)) rich = .next t ∧ decide (t.reg 1 = 32767) = true) ∧
    (∃ t, exec (.not 1 (.register 0)) rich = .next t ∧ decide (t.reg 1 = 0) = true) ∧
    (∃ t, exec (.rmem 1 (.literal 0)) rich = .next t ∧ decide (t.reg 1 = 9) = true) ∧
    ∃ t, exec (.rmem 1 (.literal 4)) rich = .next t ∧ decide (t.runState = .faulted) = true :=
  ⟨exists_after (by decide), exists_after (by decide), exists_after (by decide), exists_after (by decide),
    exists_after (by decide), exists_after (by decide), exists_after (by decide), exists_after (by decide),
    exists_after (by decide), exists_after (by decide), exists_after (by decide), exists_after (by decide)⟩

/-- For the other frames, OnlyTheDestinationIsWritten and InputReachesOnlyIn. -/
theorem witness_frames :
    (∃ t, exec (.pop 1) rich = .next t ∧ decide (t.reg 1 = 32767 ∧ t.stack = [0]) = true) ∧
    (∃ t, exec (.inChar 1) rich = .next t ∧ decide (t.runState = .faulted) = true) ∧
    (∃ t, exec (.push (.register 0)) (boot []) = .next t ∧ decide (t.stack = [0]) = true) ∧
    (∃ t, exec (.call (.register 0)) (boot []) = .next t ∧ decide (t.stack = [2]) = true) ∧
    (∃ t, exec .halt rich = .next t ∧ decide (t.pc = 1) = true) ∧
    (∃ t, exec (.jmp (.register 0)) rich = .next t ∧ decide (t.pc = 32767) = true) ∧
    (∃ t, exec (.jt (.register 1) (.register 0)) rich = .next t ∧ decide (t.pc = 3) = true) ∧
    (∃ t, exec (.jf (.register 1) (.register 0)) rich = .next t ∧ decide (t.pc = 32767) = true) ∧
    (∃ t, exec .ret rich = .next t ∧ decide (t.pc = 32767 ∧ t.stack = [0]) = true) ∧
    (∃ t, exec (.out (.register 0)) rich = .next t ∧ decide (t.output = [0, 32767, 32767]) = true) ∧
    (∃ t, exec .noop rich = .next t ∧ decide (t.pc = 1) = true) ∧
    (∃ t, exec (.wmem (.literal 5) (.register 0)) rich = .next t ∧ decide (t.memRead 5 = 32767) = true) ∧
    ∃ t, exec (.wmem (.literal 6) (.register 0)) rich = .next t ∧ decide (t.runState = .faulted) = true :=
  ⟨exists_after (by decide), exists_after (by decide), exists_after (by decide), exists_after (by decide),
    exists_after (by decide), exists_after (by decide), exists_after (by decide), exists_after (by decide),
    exists_after (by decide), exists_after (by decide), exists_after (by decide), exists_after (by decide),
    exists_after (by decide)⟩

theorem witness_pushThenPop :
    ((32767 : Word).toNat < 32768 ∧ (boot []).cfg.stackDepth ≠ some (boot []).stack.length ∧
      ∃ t, exec (.push (.literal 32767)) (boot []) = .next t ∧ decide (t.stack = [32767]) = true) ∧
    (boot []).stack = [] :=
  ⟨⟨by decide, by decide, exists_after (by decide)⟩, by decide⟩

/-- The state after `call 4` at 0, and after the nested `call 9` at 4 (vector CT14). -/
def inner : State := { boot [17, 4, 0, 0, 17, 9, 18, 0, 0, 18] with pc := 4, stack := [2] }
def nested : State := { inner with pc := 9, stack := [2, 6] }
def outer : State := { inner with pc := 6, stack := [2] }

theorem witness_callThenRet :
    (boot [17, 4, 0, 0, 17, 9, 18, 0, 0, 18]).pc.toNat + 2 < 32768 ∧
    (boot [17, 4, 0, 0, 17, 9, 18, 0, 0, 18]).cfg.stackDepth ≠ some 0 ∧
    exec (.call (.literal 4)) (boot [17, 4, 0, 0, 17, 9, 18, 0, 0, 18]) = .next inner ∧
    inner.pc.toNat + 2 < 32768 ∧ inner.cfg.stackDepth ≠ some inner.stack.length ∧
    exec (.call (.literal 9)) inner = .next nested ∧ exec .ret nested = .next outer :=
  ⟨by decide, by decide, by rfl, by decide, by decide, by rfl, by rfl⟩

theorem witness_readAfterWrite :
    rich.mem.wf ∧ (5 : Word).toNat < rich.cfg.memLen ∧ (32767 : Word).toNat < 32768 ∧
    ∃ t, exec (.wmem (.literal 5) (.literal 32767)) rich = .next t ∧ decide (t.memRead 5 = 32767) = true :=
  ⟨by decide, by decide, by decide, exists_after (by decide)⟩

/-- For SubtractionByComposition: 5 - 9 (vector A52), with r1 as the intermediate register. -/
theorem witness_subtraction :
    (boot []).InRange (.literal 5) ∧ (boot []).InRange (.literal 9) ∧ (Operand.literal 5) ≠ .register 1 ∧
    (((after (.not 1 (.literal 9)) (boot [])).bind (after (.add 1 (.register 1) (.literal 1)))).bind
      (after (.add 0 (.literal 5) (.register 1)))).map (·.reg 0) = some 32764 := by decide

theorem witness_arithmeticLaws :
    ((32767 : Word).toNat < 32768 ∧ (0 : Word).toNat < 32768 ∧ (1 : Word) ≠ 0) ∧
    rich.value (.register 1) = 0 ∧
    ∃ t, exec (.mod 0 (.literal 7) (.register 1)) rich = .next t ∧ decide (t.faultCode = .divideByZero) = true :=
  ⟨by decide, by decide, exists_after (by decide)⟩

/-- The state `wmem 3,21` leaves, after a later write to address 1 and with pc back at 3. -/
def written : State := ((rich.memWrite 3 21).memWrite 1 7).continueAt 3

/-- For WrittenCodeIsFetched: the first and the last word of a later window, another address written in between; and
vector W10, an instruction that writes its own opcode word. -/
theorem witness_writtenCode :
    (rich.mem.wf ∧ (rich.value (.literal 3)).toNat < rich.cfg.memLen ∧
      ∃ t, exec (.wmem (.literal 3) (.literal 21)) rich = .next t ∧
        decide (written.memRead 3 = t.memRead 3 ∧ written.cfg = t.cfg ∧ written.mem ≠ t.mem) = true) ∧
    ((3 : Word).toNat ≤ (rich.value (.literal 3)).toNat ∧ (rich.value (.literal 3)).toNat < (3 : Word).toNat + 4) ∧
    ((0 : Word).toNat ≤ (rich.value (.literal 3)).toNat ∧ (rich.value (.literal 3)).toNat < (0 : Word).toNat + 4) ∧
    (boot [16, 0, 21, 0]).mem.wf ∧ (boot [16, 0, 21, 0]).enabled = true ∧
    (boot [16, 0, 21, 0]).fetchDecode = .ok (.wmem (.literal 0) (.literal 21)) ∧
    ((boot [16, 0, 21, 0]).value (.literal 0)).toNat < (boot [16, 0, 21, 0]).cfg.memLen :=
  ⟨⟨by decide, by decide, exists_after (by decide)⟩, by decide, by decide, by decide, by decide, by rfl, by decide⟩

/-- The state vector IO6 leaves. -/
def held : State := { boot [20, 32769] with runState := .waitingInput }

theorem witness_heldInput :
    (boot [20, 32769]).enabled = true ∧ (boot [20, 32769]).fetchDecode = .ok (.inChar 1) ∧
    (boot [20, 32769]).inBuf = [] ∧ (boot [20, 32769]).inClosed = false ∧
    step (boot [20, 32769]) = .next held ∧
    deliverLine (120 :: [10]) held = .next { held with inBuf := [120, 10] } ∧ 120 < 32768 ∧
    closeInput [] held = .next { held with inClosed := true } :=
  ⟨by decide, by rfl, by decide, by decide, by rfl, by rfl, by decide, by rfl⟩

/-- For LoadGivesTheResetState: 3 words with MEM_LEN given and not given, and the empty image. -/
theorem witness_load :
    ([0x01, 0x00, 0x00, 0x80, 0x41, 0x00] : List Byte).length % 2 = 0 ∧
    ([0x01, 0x00, 0x00, 0x80, 0x41, 0x00] : List Byte).length ≤ 65536 ∧
    (∀ n, some 3 = some n → ([0x01, 0x00, 0x00, 0x80, 0x41, 0x00] : List Byte).length / 2 ≤ n ∧ n ≤ 32768) ∧
    (∀ n, some 32768 = some n → ([] : List Byte).length / 2 ≤ n ∧ n ≤ 32768) ∧
    ∀ n, none = some n → ([] : List Byte).length / 2 ≤ n ∧ n ≤ 32768 :=
  ⟨by decide, by decide, fun n h => by cases h; decide, fun n h => by cases h; decide, fun n h => by cases h⟩

theorem witness_failedLoad :
    (State.construct none).runState = .idle ∧
    (LoadStream.mk [] true).readFailed = true ∧ (LoadStream.mk [0] false).bytes.length % 2 = 1 ∧
    65536 < (LoadStream.mk (List.replicate 65538 0) false).bytes.length :=
  ⟨by decide, by decide, by decide, by rw [List.length_replicate]; decide⟩

theorem witness_emptyImage : 0 < 1 ∧ (1 : Nat) ≤ 32768 ∧ (32768 : Nat) ≤ 32768 := by decide

theorem witness_hostInput :
    (boot []).inClosed = false ∧ 10 ∉ [104, 105] ∧ 10 ∉ ([] : List Nat) ∧
    deliverLine [10] (boot []) = .next { boot [] with inBuf := [10] } ∧
    closeInput [104] (boot []) = .next { boot [] with inBuf := [104], inClosed := true } :=
  ⟨by decide, by decide, by decide, by rfl, by rfl⟩

/-- For StatusPortTellsOutcomesApart. -/
theorem witness_status : RunState.faulted.code = RunState.faulted.code ∧ FaultCode.none.code = FaultCode.none.code := by
  decide

/-- For TraceRecordsCompletedSteps: `add r0,r1,1` with r0 = 32767 and r1 = 0. -/
theorem witness_trace :
    (stepTrace rich).map (fun r => (r.mnemonic, r.operands)) =
      some ("add", [.register 0 32767, .register 1 0, .literal 1]) ∧
    ∃ t, step rich = .next t ∧ decide (t.runState ≠ .faulted ∧ t.runState ≠ .waitingInput) = true :=
  ⟨by decide, exists_next (by decide)⟩

end Sys2Proof.Tests
end

/-! PROOFS of the statements on the machine's state (spec/10_state.md): the invariant and the steps, which registers an
instruction writes, the reset state, and the STATUS port. -/

/-! ### What the fetch and decode phases give a meaning -/

namespace Sys2Proof

theorem encode_length (i : Instr) : (encode i).length = i.length := by
  cases i <;> rfl

/-- What `ws` holds when `i` was decoded from the opcode word `op` and `ws`, with `rest` left over. -/
def DecodedFrom (op : Word) (ws rest : List Word) (i : Instr) : Prop :=
  i.wf = true ∧ op = i.opcode ∧ ws = i.operandWords ++ rest

section Formats

variable {op : Word} {n : Nat} {ws rest : List Word} {i : Instr} (hop : op.toNat = n)
include hop

theorem decodedFrom_of_F0 {j : Instr}
    (hj : j.wf = true ∧ j.opcode.toNat = n ∧ j.operandWords = [])
    (h : Except.ok (ε := DecodeError) (j, ws) = .ok (i, rest)) : DecodedFrom op ws rest i := by
  cases h
  obtain ⟨hwf, hcode, hwords⟩ := hj
  exact ⟨hwf, BitVec.eq_of_toNat_eq (hop.trans hcode.symm), by simp [hwords]⟩

theorem decodedFrom_of_F1V {mk : Operand → Instr}
    (hmk : ∀ a, (mk a).wf = a.wf ∧ (mk a).opcode.toNat = n ∧ (mk a).operandWords = [a.encode])
    (h : decodeF1V mk ws = .ok (i, rest)) : DecodedFrom op ws rest i := by
  obtain ⟨a, ha, rfl, rfl⟩ := decodeF1V_cases h
  obtain ⟨hwf, hcode, hwords⟩ := hmk a
  exact ⟨hwf.trans ha, BitVec.eq_of_toNat_eq (hop.trans hcode.symm), by simp [hwords]⟩

theorem decodedFrom_of_F1D {mk : Reg → Instr}
    (hmk : ∀ a, (mk a).wf = true ∧ (mk a).opcode.toNat = n ∧ (mk a).operandWords = [Reg.encode a])
    (h : decodeF1D mk ws = .ok (i, rest)) : DecodedFrom op ws rest i := by
  obtain ⟨a, rfl, rfl⟩ := decodeF1D_cases h
  obtain ⟨hwf, hcode, hwords⟩ := hmk a
  exact ⟨hwf, BitVec.eq_of_toNat_eq (hop.trans hcode.symm), by simp [hwords]⟩

theorem decodedFrom_of_F2DV {mk : Reg → Operand → Instr}
    (hmk : ∀ a b, (mk a b).wf = b.wf ∧ (mk a b).opcode.toNat = n ∧
      (mk a b).operandWords = [Reg.encode a, b.encode])
    (h : decodeF2DV mk ws = .ok (i, rest)) : DecodedFrom op ws rest i := by
  obtain ⟨a, b, hb, rfl, rfl⟩ := decodeF2DV_cases h
  obtain ⟨hwf, hcode, hwords⟩ := hmk a b
  exact ⟨hwf.trans hb, BitVec.eq_of_toNat_eq (hop.trans hcode.symm), by simp [hwords]⟩

theorem decodedFrom_of_F2VV {mk : Operand → Operand → Instr}
    (hmk : ∀ a b, (mk a b).wf = (a.wf && b.wf) ∧ (mk a b).opcode.toNat = n ∧
      (mk a b).operandWords = [a.encode, b.encode])
    (h : decodeF2VV mk ws = .ok (i, rest)) : DecodedFrom op ws rest i := by
  obtain ⟨a, b, ha, hb, rfl, rfl⟩ := decodeF2VV_cases h
  obtain ⟨hwf, hcode, hwords⟩ := hmk a b
  exact ⟨by simp [hwf, ha, hb], BitVec.eq_of_toNat_eq (hop.trans hcode.symm), by simp [hwords]⟩

theorem decodedFrom_of_F3DVV {mk : Reg → Operand → Operand → Instr}
    (hmk : ∀ a b c, (mk a b c).wf = (b.wf && c.wf) ∧ (mk a b c).opcode.toNat = n ∧
      (mk a b c).operandWords = [Reg.encode a, b.encode, c.encode])
    (h : decodeF3DVV mk ws = .ok (i, rest)) : DecodedFrom op ws rest i := by
  obtain ⟨a, b, c, hb, hc, rfl, rfl⟩ := decodeF3DVV_cases h
  obtain ⟨hwf, hcode, hwords⟩ := hmk a b c
  exact ⟨by simp [hwf, hb, hc], BitVec.eq_of_toNat_eq (hop.trans hcode.symm), by simp [hwords]⟩

end Formats

/-- The opcode map inverts the opcode and the operand words of a well-formed instruction (R80, R81). -/
theorem decodedFrom_of_decodeOp {op : Word} {ws rest : List Word} {i : Instr}
    (h : decodeOp op ws = .ok (i, rest)) : DecodedFrom op ws rest i := by
  unfold decodeOp at h
  split at h
  · next hop => exact decodedFrom_of_F0 hop ⟨rfl, rfl, rfl⟩ h
  · next hop => exact decodedFrom_of_F2DV hop (fun _ _ => ⟨rfl, rfl, rfl⟩) h
  · next hop => exact decodedFrom_of_F1V hop (fun _ => ⟨rfl, rfl, rfl⟩) h
  · next hop => exact decodedFrom_of_F1D hop (fun _ => ⟨rfl, rfl, rfl⟩) h
  · next hop => exact decodedFrom_of_F3DVV hop (fun _ _ _ => ⟨rfl, rfl, rfl⟩) h
  · next hop => exact decodedFrom_of_F3DVV hop (fun _ _ _ => ⟨rfl, rfl, rfl⟩) h
  · next hop => exact decodedFrom_of_F1V hop (fun _ => ⟨rfl, rfl, rfl⟩) h
  · next hop => exact decodedFrom_of_F2VV hop (fun _ _ => ⟨rfl, rfl, rfl⟩) h
  · next hop => exact decodedFrom_of_F2VV hop (fun _ _ => ⟨rfl, rfl, rfl⟩) h
  · next hop => exact decodedFrom_of_F3DVV hop (fun _ _ _ => ⟨rfl, rfl, rfl⟩) h
  · next hop => exact decodedFrom_of_F3DVV hop (fun _ _ _ => ⟨rfl, rfl, rfl⟩) h
  · next hop => exact decodedFrom_of_F3DVV hop (fun _ _ _ => ⟨rfl, rfl, rfl⟩) h
  · next hop => exact decodedFrom_of_F3DVV hop (fun _ _ _ => ⟨rfl, rfl, rfl⟩) h
  · next hop => exact decodedFrom_of_F3DVV hop (fun _ _ _ => ⟨rfl, rfl, rfl⟩) h
  · next hop => exact decodedFrom_of_F2DV hop (fun _ _ => ⟨rfl, rfl, rfl⟩) h
  · next hop => exact decodedFrom_of_F2DV hop (fun _ _ => ⟨rfl, rfl, rfl⟩) h
  · next hop => exact decodedFrom_of_F2VV hop (fun _ _ => ⟨rfl, rfl, rfl⟩) h
  · next hop => exact decodedFrom_of_F1V hop (fun _ => ⟨rfl, rfl, rfl⟩) h
  · next hop => exact decodedFrom_of_F0 hop ⟨rfl, rfl, rfl⟩ h
  · next hop => exact decodedFrom_of_F1V hop (fun _ => ⟨rfl, rfl, rfl⟩) h
  · next hop => exact decodedFrom_of_F1D hop (fun _ => ⟨rfl, rfl, rfl⟩) h
  · next hop => exact decodedFrom_of_F0 hop ⟨rfl, rfl, rfl⟩ h
  · cases h

/-- What the decoder can answer: a well-formed instruction whose own words come first. -/
theorem decodeWords_cases {ws rest : List Word} {i : Instr} (h : decodeWords ws = .ok (i, rest)) :
    WellFormed i ∧ ws = encode i ++ rest := by
  cases ws with
  | nil => cases h
  | cons op ws =>
    obtain ⟨hwf, hop, hws⟩ := decodedFrom_of_decodeOp h
    exact ⟨hwf, by rw [hop, hws]; rfl⟩

end Sys2Proof

namespace Sys2Proof.Machine

/-- A decoded instruction is well formed and lies whole below MEM_LEN (spec/20_memory.md R55). -/
theorem State.wf_and_fits_of_fetchDecode {s : State} {i : Instr} (h : s.fetchDecode = .ok i) :
    WellFormed i ∧ s.pc.toNat + i.length ≤ s.cfg.memLen := by
  obtain ⟨rest, hd⟩ := State.fetchDecode_cases h
  obtain ⟨hwf, hwords⟩ := decodeWords_cases hd
  have hlen := congrArg List.length hwords
  have hpos : 1 ≤ (encode i).length := by simp [encode]
  rw [State.fetchWindow, Memory.fetch_length, List.length_append] at hlen
  rw [encode_length] at hlen hpos
  exact ⟨hwf, by omega⟩

/-! ### Values and addresses under the invariant -/

theorem State.Inv.value_lt {s : State} (h : s.Inv) {o : Operand} (ho : o.wf = true) :
    (s.value o).toNat < 32768 := by
  cases o with
  | literal w => exact of_decide_eq_true ho
  | register r => exact h.regsBelow r

theorem State.pcAfter_le {s : State} {n : Nat} (h : s.pc.toNat + n ≤ 32768) : (s.pcAfter n).toNat ≤ 32768 := by
  rw [State.pcAfter, BitVec.toNat_add, BitVec.toNat_ofNat]
  omega

/-- Wherever an instruction of a run goes next, pc stays within 0..32768 (spec/10_state.md R28). -/
theorem State.Inv.nextPc_le {s : State} (h : s.Inv) {i : Instr} (hwf : WellFormed i)
    (hlen : s.pc.toNat + i.length ≤ 32768) : (nextPc s i).toNat ≤ 32768 := by
  cases i with
  | jmp a => exact (h.value_lt hwf).le
  | call a => exact (h.value_lt hwf).le
  | jt a b =>
    obtain ⟨-, hb⟩ := Bool.and_eq_true_iff.1 hwf
    simp only [nextPc]
    split
    · exact (h.value_lt hb).le
    · exact State.pcAfter_le hlen
  | jf a b =>
    obtain ⟨-, hb⟩ := Bool.and_eq_true_iff.1 hwf
    simp only [nextPc]
    split
    · exact (h.value_lt hb).le
    · exact State.pcAfter_le hlen
  | ret =>
    simp only [nextPc]
    cases hl : s.stack.getLast? with
    | none => exact State.pcAfter_le hlen
    | some v => exact (h.stackBelow v (List.mem_of_getLast? hl)).le
  | _ => exact State.pcAfter_le hlen

/-! ### Every state operation keeps the invariant -/

namespace State.Inv

variable {s : State} (h : s.Inv)
include h

theorem takeFault {c : FaultCode} (hc : c ≠ .none) (w : Word) : (s.takeFault c w).Inv :=
  { h with
    recordEmpty := fun hn => absurd rfl hn
    recordSet := fun _ => hc }

theorem continueAt (hr : s.runState ≠ .faulted) {t : Word} (ht : t.toNat ≤ 32768) : (s.continueAt t).Inv :=
  { h with
    pcLe := ht
    recordEmpty := fun _ => h.recordEmpty hr
    recordSet := nofun }

theorem terminate (hr : s.runState ≠ .faulted) {o : RunState} (ho : o ≠ .faulted) {n : Nat}
    (hn : s.pc.toNat + n ≤ 32768) : (s.terminate o n).Inv :=
  { h with
    pcLe := State.pcAfter_le hn
    recordEmpty := fun _ => h.recordEmpty hr
    recordSet := fun e => absurd e ho }

theorem hold (hr : s.runState ≠ .faulted) : s.hold.Inv :=
  { h with
    recordEmpty := fun _ => h.recordEmpty hr
    recordSet := nofun }

theorem setReg (d : Reg) {v : Word} (hv : v.toNat < 32768) : (s.setReg d v).Inv :=
  { h with
    regsBelow := fun r => by
      rw [State.setReg_reg]
      split
      · exact hv
      · exact h.regsBelow r }

theorem memWrite {a : Nat} (ha : a < s.cfg.memLen) (w : Word) : (s.memWrite a w).Inv :=
  { h with
    memWf := Memory.wf_writeWord h.memWf a w
    memBelow := fun c hc => by
      change c.1 < 2 * s.cfg.memLen
      rcases Memory.mem_writeByte hc with hk | hc
      · omega
      · rcases Memory.mem_writeByte hc with hk | hc
        · omega
        · exact h.memBelow c hc }

theorem push {v : Word} (hv : v.toNat < 32768) (hd : s.cfg.stackDepth ≠ some s.stack.length) : (s.push v).Inv :=
  { h with
    stackBelow := fun x hx => by
      rcases List.mem_append.1 hx with hx | hx
      · exact h.stackBelow x hx
      · rwa [List.mem_singleton.1 hx]
    depthLe := fun d he => by
      have hle := h.depthLe d he
      have hne : s.stack.length ≠ d := fun e => hd (e ▸ he)
      simp only [State.push_stack, List.length_append, List.length_singleton]
      omega }

/-- Removing the top of the stack keeps the invariant. -/
theorem dropTop {st : List Word} {v : Word} (hs : s.stack = st ++ [v]) : State.Inv { s with stack := st } :=
  { h with
    stackBelow := fun x hx => h.stackBelow x (by simp [hs, hx])
    depthLe := fun d he => by
      have hle := h.depthLe d he
      rw [hs, List.length_append] at hle
      exact Nat.le_of_add_right_le hle }

theorem outPort {v : Word} (hv : v.toNat < 32768) : (s.outPort v).Inv :=
  { h with
    outputBelow := fun x hx => by
      rcases List.mem_append.1 hx with hx | hx
      · exact h.outputBelow x hx
      · rwa [List.mem_singleton.1 hx] }

/-- The invariant says nothing of the input port. -/
theorem setInput (buf consumed : List Nat) : State.Inv { s with inBuf := buf, inConsumed := consumed } :=
  { h with }

end State.Inv

/-! ### Every step keeps the invariant -/

theorem toNat_ofNat_word_lt {v : Nat} (h : v < 32768) : (BitVec.ofNat 16 v).toNat < 32768 := by
  rwa [toNat_ofNat_word (by omega)]

/-- Whatever a well-formed instruction that lies below address 32768 does, it keeps the invariant. -/
theorem State.Inv.effect {s t : State} {i : Instr} (h : s.Inv) (hr : s.runState ≠ .faulted) (hwf : WellFormed i)
    (hlen : s.pc.toNat + i.length ≤ 32768) (he : Effect i s t) : t.Inv := by
  have hnext := h.nextPc_le hwf hlen
  have hafter := State.pcAfter_le hlen
  cases he with
  | fault c w hc => exact h.takeFault hc w
  | write d v _ _ _ hv => exact (h.setReg d (toNat_ofNat_word_lt hv)).continueAt hr hafter
  | jump _ => exact h.continueAt hr hnext
  | store a b hi ha =>
    subst hi
    exact (h.memWrite ha _).continueAt hr hafter
  | push v _ hv hd => exact (h.push (toNat_ofNat_word_lt hv) hd).continueAt hr hnext
  | pop d st v hi hs hv =>
    subst hi
    exact ((h.dropTop hs).setReg d hv).continueAt hr hafter
  | ret st v _ hs => exact (h.dropTop hs).continueAt hr (h.stackBelow v (by simp [hs])).le
  | halt hi =>
    subst hi
    exact h.terminate hr (by decide) hlen
  | stackEnd n hi _ =>
    rcases hi with ⟨⟨d, rfl⟩, rfl⟩ | ⟨rfl, rfl⟩ <;> exact h.terminate hr (by decide) hlen
  | out a hi =>
    subst hi
    exact (h.outPort (h.value_lt hwf)).continueAt hr hafter
  | hold _ _ _ _ => exact h.hold hr
  | char d c cs hi _ hc =>
    subst hi
    exact ((h.setInput _ _).setReg d (toNat_ofNat_word_lt hc)).continueAt hr hafter
  | badChar _ _ _ _ _ _ => exact (h.setInput _ _).takeFault (by decide) _

theorem State.not_faulted_of_enabled {s : State} (h : s.enabled = true) : s.runState ≠ .faulted := by
  rcases s.enabled_iff.1 h with hr | hr <;> simp [hr]

/-- Settles O36: a decoded instruction is well formed and ends below MEM_LEN, so its effect keeps the invariant, and a
failing check of the decoder takes a fault. -/
theorem stepKeepsTheInvariant : Obligations.StepKeepsTheInvariant := by
  unfold Obligations.StepKeepsTheInvariant
  intro s t h hstep
  obtain ⟨hen, ⟨i, hd, hx⟩ | ⟨e, -, rfl⟩⟩ := step_cases hstep
  · obtain ⟨hwf, hfits⟩ := State.wf_and_fits_of_fetchDecode hd
    exact h.effect (State.not_faulted_of_enabled hen) hwf (hfits.trans h.memLenLe) (exec_effect hx)
  · obtain ⟨c, w, hc, heq⟩ := s.decodeFault_eq e
    exact heq ▸ h.takeFault hc w

/-! ### What the instructions leave unchanged -/

/-- An instruction with a destination, other than `pop` and `in`, either faults with nothing written or writes its
destination and continues. -/
theorem Effect.cases_of_destination {i : Instr} {s t : State} {d : Reg} (he : Effect i s t)
    (hd : destination i = some d) (hp : ∀ a, i ≠ .pop a) (hn : ∀ a, i ≠ .inChar a) :
    (∃ c w, t = s.takeFault c w) ∨ ∃ v w, t = (s.setReg d v).continueAt w := by
  cases he with
  | fault c w _ => exact .inl ⟨c, w, rfl⟩
  | write d' v hd' _ _ _ =>
    cases hd.symm.trans hd'
    exact .inr ⟨_, _, rfl⟩
  | jump hi => rcases hi with ⟨a, rfl⟩ | ⟨a, b, rfl⟩ | ⟨a, b, rfl⟩ | rfl <;> cases hd
  | store a b hi _ => subst hi; cases hd
  | push v hi _ _ => rcases hi with ⟨a, rfl⟩ | ⟨a, rfl⟩ <;> cases hd
  | pop a _ _ hi _ _ => exact absurd hi (hp a)
  | ret _ _ hi _ => subst hi; cases hd
  | halt hi => subst hi; cases hd
  | stackEnd n hi _ =>
    rcases hi with ⟨⟨a, hi⟩, -⟩ | ⟨rfl, -⟩
    · exact absurd hi (hp a)
    · cases hd
  | out a hi => subst hi; cases hd
  | hold a hi _ _ => exact absurd hi (hn a)
  | char a _ _ hi _ _ => exact absurd hi (hn a)
  | badChar a _ _ hi _ _ => exact absurd hi (hn a)

/-- An instruction with a destination, other than `pop` and `in`, writes at most its destination. -/
theorem writesAtMost_destination {i : Instr} {d : Reg} (hd : destination i = some d) (hp : ∀ a, i ≠ .pop a)
    (hn : ∀ a, i ≠ .inChar a) : WritesAtMost d i := by
  intro s t hx
  rcases (exec_effect hx).cases_of_destination hd hp hn with ⟨c, w, rfl⟩ | ⟨v, w, rfl⟩
  · exact ⟨fun _ _ => rfl, fun _ _ => rfl, fun _ => rfl, rfl, rfl, ⟨rfl, rfl, rfl⟩, rfl, .inl rfl⟩
  · exact ⟨fun _ hne => s.setReg_reg_of_ne v hne, nofun, fun _ => rfl, rfl, rfl, ⟨rfl, rfl, rfl⟩, rfl,
      .inr ⟨rfl, rfl, rfl⟩⟩

/-- Settles O40: the ten are instructions with a destination, and none is `pop` or `in`. -/
theorem frameOfRegisterWriters : Obligations.FrameOfRegisterWriters := by
  unfold Obligations.FrameOfRegisterWriters
  refine ⟨?_, ?_, ?_, ?_, ?_, ?_, ?_, ?_, ?_, ?_⟩ <;> intros <;> exact writesAtMost_destination rfl nofun nofun

/-- A register that is not the instruction's destination keeps its value. -/
theorem Effect.reg_eq {i : Instr} {s t : State} (he : Effect i s t) {r : Reg} (hr : destination i ≠ some r) :
    t.reg r = s.reg r := by
  cases he with
  | write d v hd _ _ _ => exact s.setReg_reg_of_ne _ fun e => hr (e ▸ hd)
  | pop d st v hi _ _ =>
    subst hi
    exact State.setReg_reg_of_ne _ v fun e => hr (e ▸ rfl)
  | char d c cs hi _ _ =>
    subst hi
    exact State.setReg_reg_of_ne _ _ fun e => hr (e ▸ rfl)
  | _ => rfl

/-- Settles O45, by cases on what an instruction can do. -/
theorem onlyTheDestinationIsWritten : Obligations.OnlyTheDestinationIsWritten := by
  unfold Obligations.OnlyTheDestinationIsWritten
  intro i s t hx
  have he := exec_effect hx
  exact ⟨fun hn r => he.reg_eq (by simp [hn]), fun d hd r hne => he.reg_eq (by simpa [hd] using hne.symm)⟩

/-! ### The reset state -/

/-- Settles O37: everything the invariant bounds is zero or empty after reset. -/
theorem resetHasTheInvariant : Obligations.ResetHasTheInvariant where
  memWf := reset_mem_wf
  memBelow := nofun
  memLenLe := by decide
  depthPos := nofun
  regsBelow := fun r => by simp
  stackBelow := nofun
  depthLe := nofun
  pcLe := by decide
  outputBelow := nofun
  recordEmpty := fun _ => ⟨rfl, rfl, rfl⟩
  recordSet := nofun

/-- Reset memory has no cells, so every word reads as 0 (spec/10_state.md R41). -/
@[simp] theorem State.reset_memRead (a : Nat) : State.reset.memRead a = 0 :=
  show wordOfBytes Memory.unlisted Memory.unlisted = 0 by decide

/-- Settles O54: reset zeroes every field, and construction followed by a load of the empty image computes to it. -/
theorem resetState : Obligations.ResetState := by
  unfold Obligations.ResetState
  exact ⟨State.reset_reg, rfl, rfl, State.reset_memRead, rfl, rfl, rfl, rfl, rfl, rfl, rfl, rfl, rfl⟩

/-! ### The STATUS port -/

theorem RunState.ofNat_code (r : RunState) : RunState.ofNat r.code.toNat = r := by cases r <;> rfl

theorem RunState.code_inj {r r' : RunState} : r.code = r'.code ↔ r = r' :=
  ⟨fun h => by rw [← r.ofNat_code, h, r'.ofNat_code], congrArg _⟩

theorem FaultCode.ofNat_code (c : FaultCode) : FaultCode.ofNat c.code.toNat = c := by cases c <;> rfl

theorem FaultCode.code_inj {c c' : FaultCode} : c.code = c'.code ↔ c = c' :=
  ⟨fun h => by rw [← c.ofNat_code, h, c'.ofNat_code], congrArg _⟩

theorem RunState.exitStatus_eq_zero_iff (r : RunState) :
    r.exitStatus = some 0 ↔ r = .halted ∨ r = .stackEnd := by cases r <;> decide

theorem RunState.exitStatus_eq_one_iff (r : RunState) : r.exitStatus = some 1 ↔ r = .faulted := by
  cases r <;> decide

theorem RunState.exitStatus_eq_none_iff (r : RunState) :
    r.exitStatus = none ↔ ¬ (r = .halted ∨ r = .stackEnd ∨ r = .faulted) := by cases r <;> decide

/-- Settles O59: the codes are the positions in the spec's tables, so they are injective, and the exit status is decided
by the run state. -/
theorem statusPortTellsOutcomesApart : Obligations.StatusPortTellsOutcomesApart := by
  unfold Obligations.StatusPortTellsOutcomesApart
  refine ⟨by decide, by decide, fun _ _ => RunState.code_inj, fun _ _ => FaultCode.code_inj, fun s => ?_⟩
  exact ⟨rfl, rfl, rfl, rfl, s.runState.exitStatus_eq_zero_iff, s.runState.exitStatus_eq_one_iff,
    s.runState.exitStatus_eq_none_iff⟩

end Sys2Proof.Machine

/-! PROOFS of the statements on memory (spec/20_memory.md): a fetch past its end, the words a step can create, and code
that is written while it runs. -/

/-! ### Decoding an instruction whose last words are missing -/

namespace Sys2Proof

section Formats

variable {k : Nat}

theorem decodeF1V_take (mk : Operand → Instr) (a : Operand) (hk : k < 1) :
    decodeF1V mk ([a.encode].take k) = .error (.missing (k + 1)) := by
  obtain rfl : k = 0 := by omega
  rfl

theorem decodeF1D_take (mk : Reg → Instr) (a : Reg) (hk : k < 1) :
    decodeF1D mk ([Reg.encode a].take k) = .error (.missing (k + 1)) := by
  obtain rfl : k = 0 := by omega
  rfl

theorem decodeF2DV_take (mk : Reg → Operand → Instr) (a : Reg) (b : Operand) (hk : k < 2) :
    decodeF2DV mk ([Reg.encode a, b.encode].take k) = .error (.missing (k + 1)) := by
  match k, hk with
  | 0, _ => rfl
  | 1, _ => simp [decodeF2DV, takeDst_ok]

theorem decodeF2VV_take (mk : Operand → Operand → Instr) {a : Operand} (b : Operand) (ha : a.wf = true)
    (hk : k < 2) : decodeF2VV mk ([a.encode, b.encode].take k) = .error (.missing (k + 1)) := by
  match k, hk with
  | 0, _ => rfl
  | 1, _ => simp [decodeF2VV, takeVal_ok (decodeVal_encode ha)]

theorem decodeF3DVV_take (mk : Reg → Operand → Operand → Instr) (a : Reg) {b : Operand} (c : Operand)
    (hb : b.wf = true) (hk : k < 3) :
    decodeF3DVV mk ([Reg.encode a, b.encode, c.encode].take k) = .error (.missing (k + 1)) := by
  match k, hk with
  | 0, _ => rfl
  | 1, _ => simp [decodeF3DVV, takeDst_ok]
  | 2, _ => simp [decodeF3DVV, takeDst_ok, takeVal_ok (decodeVal_encode hb)]

/-- Each format asks for its operand words in order, so the first one that is not there is the failing check
(spec/60_exceptions.md R203). -/
theorem decodeOp_take_operandWords {i : Instr} (hwf : WellFormed i) (hk : k < i.operandWords.length) :
    decodeOp i.opcode (i.operandWords.take k) = .error (.missing (k + 1)) := by
  cases i with
  | halt | ret | noop => cases hk
  | push a | jmp a | call a | out a => exact decodeF1V_take _ a hk
  | pop a | inChar a => exact decodeF1D_take _ a hk
  | set a b | not a b | rmem a b => exact decodeF2DV_take _ a b hk
  | jt a b | jf a b | wmem a b => exact decodeF2VV_take _ b (Bool.and_eq_true_iff.1 hwf).1 hk
  | eq a b c | gt a b c | add a b c | mult a b c | mod a b c | and a b c | or a b c =>
    exact decodeF3DVV_take _ a c (Bool.and_eq_true_iff.1 hwf).1 hk

end Formats

/-- Cut off at word `j`, the words of an instruction decode to nothing, and the check that fails is the fetch of
word `j` (spec/20_memory.md R55). -/
theorem decodeWords_take_encode {i : Instr} {j : Nat} (hwf : WellFormed i) (hj : j < (encode i).length) :
    decodeWords ((encode i).take j) = .error (.missing j) := by
  cases j with
  | zero => rfl
  | succ k => exact decodeOp_take_operandWords hwf (Nat.lt_of_succ_lt_succ hj)

theorem encode_length_le (i : Instr) : (encode i).length ≤ 4 := by
  cases i <;> simp [encode, Instr.operandWords]

end Sys2Proof

namespace Sys2Proof.Machine

/-! ### A fetch past the end of memory -/

/-- Where the words at pc are those of `i` and memory ends at word `j`, the next step can fetch the first `j` words. -/
theorem State.fetchWindow_eq_take {s : State} {i : Instr} {j : Nat} (hj : j < (encode i).length)
    (hend : s.pc.toNat + j = s.cfg.memLen)
    (hw : ∀ k (h : k < (encode i).length), k < j → s.memRead (s.pc.toNat + k) = (encode i)[k]) :
    s.fetchWindow = (encode i).take j := by
  have hlen := encode_length_le i
  apply List.ext_getElem?
  intro k
  rw [State.fetchWindow_getElem?, List.getElem?_take]
  by_cases hk : k < j
  · rw [if_pos (by omega), if_pos hk, hw k (hk.trans hj) hk, List.getElem?_eq_getElem]
  · rw [if_neg (by omega), if_neg hk]

theorem State.fetchWindow_of_memLen_le {s : State} (h : s.cfg.memLen ≤ s.pc.toNat) : s.fetchWindow = [] :=
  List.length_eq_zero_iff.1 (by rw [State.fetchWindow, Memory.fetch_length]; omega)

theorem step_of_decode_error {s : State} {e : DecodeError} (hen : s.enabled = true)
    (h : decodeWords s.fetchWindow = .error e) : step s = .next (s.decodeFault e) := by
  rw [step_of_enabled hen, State.fetchDecode_of_error h]

/-- Settles O29: with no word to fetch the opcode word is missing, and with the first `j` words of an instruction
word `j` is; the decoder's check for it is the one that fails. -/
theorem fetchBeyondMemoryFaults : Obligations.FetchBeyondMemoryFaults := by
  unfold Obligations.FetchBeyondMemoryFaults
  refine ⟨fun s hen hpc => ?_, fun s i j hwf hen hj hend hw => ?_⟩
  · have hd : decodeWords s.fetchWindow = .error (.missing 0) := by rw [State.fetchWindow_of_memLen_le hpc]; rfl
    rw [step_of_decode_error hen hd, State.decodeFault, Nat.add_zero, ofNat_toNat_word]
  · have hd : decodeWords s.fetchWindow = .error (.missing j) := by
      rw [State.fetchWindow_eq_take hj hend hw, decodeWords_take_encode hwf hj]
    exact step_of_decode_error hen hd

/-! ### The words memory reads after a step -/

/-- A word read after a word written (spec/20_memory.md R59, R62). -/
theorem State.memWrite_memRead {s : State} (hm : s.mem.wf) (a : Nat) (w : Word) (k : Nat) :
    (s.memWrite a w).memRead k = if k = a then w else s.memRead k :=
  Memory.readWord_writeWord hm a w k

/-- A word an instruction changes is the value of the second operand of `wmem`. -/
theorem Effect.memRead_eq_or {i : Instr} {s t : State} (he : Effect i s t) (hm : s.mem.wf) (k : Nat) :
    t.memRead k = s.memRead k ∨ ∃ a b, i = .wmem a b ∧ t.memRead k = s.value b := by
  cases he with
  | store a b hi _ =>
    rw [State.continueAt_memRead, State.memWrite_memRead hm]
    split
    · exact .inr ⟨a, b, hi, rfl⟩
    · exact .inl rfl
  | _ => exact .inl rfl

/-- Settles O39: the only words a step changes are those `wmem` writes, and under the invariant a decoded operand's
value lies below 32768. -/
theorem noStepCreatesALargeWord : Obligations.NoStepCreatesALargeWord := by
  unfold Obligations.NoStepCreatesALargeWord
  intro s t h hstep k hlarge
  obtain ⟨-, ⟨i, hd, hx⟩ | ⟨e, -, rfl⟩⟩ := step_cases hstep
  · rcases (exec_effect hx).memRead_eq_or h.memWf k with hk | ⟨a, b, rfl, hk⟩
    · exact hk
    · obtain ⟨hwf, -⟩ := State.wf_and_fits_of_fetchDecode hd
      obtain ⟨-, hb⟩ := Bool.and_eq_true_iff.1 hwf
      exact absurd (h.value_lt hb) (by rw [← hk]; omega)
  · obtain ⟨c, w, -, heq⟩ := s.decodeFault_eq e
    rw [heq, State.takeFault_memRead]

/-! ### Code that is written while it runs -/

theorem exec_wmem_of_lt {s : State} {a : Operand} (b : Operand) (h : (s.value a).toNat < s.cfg.memLen) :
    exec (.wmem a b) s = .next ((s.memWrite (s.value a).toNat (s.value b)).continueAt (s.pcAfter 3)) :=
  if_pos ((s.inMemory_iff _).2 h)

/-- A fetch window that covers an address below MEM_LEN holds the word memory reads there. -/
theorem State.fetchWindow_getElem?_sub {s : State} {k : Nat} (hk : k < s.cfg.memLen) (hle : s.pc.toNat ≤ k)
    (hlt : k < s.pc.toNat + 4) : s.fetchWindow[k - s.pc.toNat]? = some (s.memRead k) := by
  rw [State.fetchWindow_getElem?, if_pos (by omega), Nat.add_sub_cancel' hle]

/-- Settles O52: a fetch reads the memory the write left, and the step that writes has read its own words before. -/
theorem writtenCodeIsFetched : Obligations.WrittenCodeIsFetched := by
  unfold Obligations.WrittenCodeIsFetched
  refine ⟨fun s t u a b hm ha hx hread hcfg hle hlt => ?_, fun s a b hm hen hd ha => ?_⟩
  · cases (exec_wmem_of_lt b ha).symm.trans hx
    rw [State.continueAt_memRead, State.memWrite_memRead hm, if_pos rfl] at hread
    have hk : (s.value a).toNat < u.cfg.memLen := by rwa [hcfg]
    rw [State.fetchWindow_getElem?_sub hk hle hlt, hread]
  · have hstep : step s = exec (.wmem a b) s := by rw [step_of_enabled hen, hd]
    refine ⟨_, hstep.trans (exec_wmem_of_lt b ha), rfl, rfl, ?_, fun k hk => ?_⟩
    · rw [State.continueAt_memRead, State.memWrite_memRead hm, if_pos rfl]
    · rw [State.continueAt_memRead, State.memWrite_memRead hm, if_neg hk]

end Sys2Proof.Machine

/-! PROOFS of the statements on the encoding (spec/30_encoding.md): the round trip between words and instructions, the
classes of operand words, and the faults of a failing decode. -/

namespace Sys2Proof

/-! ### Decoding an instruction whose words are all there -/

section Formats

variable (rest : List Word)

theorem decodeF1V_encode (mk : Operand → Instr) {a : Operand} (ha : a.wf = true) :
    decodeF1V mk (a.encode :: rest) = .ok (mk a, rest) := by
  simp [decodeF1V, takeVal_ok (decodeVal_encode ha)]

theorem decodeF1D_encode (mk : Reg → Instr) (a : Reg) :
    decodeF1D mk (Reg.encode a :: rest) = .ok (mk a, rest) := by
  simp [decodeF1D, takeDst_ok]

theorem decodeF2DV_encode (mk : Reg → Operand → Instr) (a : Reg) {b : Operand} (hb : b.wf = true) :
    decodeF2DV mk (Reg.encode a :: b.encode :: rest) = .ok (mk a b, rest) := by
  simp [decodeF2DV, takeDst_ok, takeVal_ok (decodeVal_encode hb)]

theorem decodeF2VV_encode (mk : Operand → Operand → Instr) {a b : Operand} (ha : a.wf = true) (hb : b.wf = true) :
    decodeF2VV mk (a.encode :: b.encode :: rest) = .ok (mk a b, rest) := by
  simp [decodeF2VV, takeVal_ok (decodeVal_encode ha), takeVal_ok (decodeVal_encode hb)]

theorem decodeF3DVV_encode (mk : Reg → Operand → Operand → Instr) (a : Reg) {b c : Operand} (hb : b.wf = true)
    (hc : c.wf = true) :
    decodeF3DVV mk (Reg.encode a :: b.encode :: c.encode :: rest) = .ok (mk a b c, rest) := by
  simp [decodeF3DVV, takeDst_ok, takeVal_ok (decodeVal_encode hb), takeVal_ok (decodeVal_encode hc)]

/-- The opcode map gives each opcode word the format of its instruction, and the format reads the operand words back
(R80, R81). -/
theorem decodeOp_operandWords_append {i : Instr} (hwf : WellFormed i) :
    decodeOp i.opcode (i.operandWords ++ rest) = .ok (i, rest) := by
  cases i with
  | halt | ret | noop => rfl
  | push a | jmp a | call a | out a => exact decodeF1V_encode rest _ hwf
  | pop a | inChar a => exact decodeF1D_encode rest _ a
  | set a b | not a b | rmem a b => exact decodeF2DV_encode rest _ a hwf
  | jt a b | jf a b | wmem a b =>
    obtain ⟨ha, hb⟩ := Bool.and_eq_true_iff.1 hwf
    exact decodeF2VV_encode rest _ ha hb
  | eq a b c | gt a b c | add a b c | mult a b c | mod a b c | and a b c | or a b c =>
    obtain ⟨hb, hc⟩ := Bool.and_eq_true_iff.1 hwf
    exact decodeF3DVV_encode rest _ a hb hc

end Formats

/-- Settles O23: the first word is the opcode word, and the opcode map reads the operand words back. -/
theorem decodeOfEncode : Obligations.DecodeOfEncode :=
  fun _ rest hwf => decodeOp_operandWords_append rest hwf

/-- Settles O24: each format's decoder answers an instruction only from that instruction's own words. -/
theorem encodeOfDecode : Obligations.EncodeOfDecode :=
  fun _ _ _ h => decodeWords_cases h

/-- Settles O26: the words and the bytes are computed, and the words decode to the instructions they encode. -/
theorem workedEncodingDecodes : Obligations.WorkedEncodingDecodes :=
  ⟨rfl, rfl, rfl, decodeOfEncode (.out (.register 0)) [0] rfl, decodeOfEncode .halt [] rfl⟩

/-! ### The classes of operand words and their bit columns (R74 to R76) -/

/-- Bit 15 tells a literal from the larger words. -/
theorem getLsbD_fifteen (w : Word) : w.getLsbD 15 = decide (32768 ≤ w.toNat) := by
  rw [← BitVec.msb_eq_getLsbD_last (x := w), BitVec.msb_eq_decide]

/-- Bits 14:3 are all 0 in the first eight words of each half. -/
theorem extractLsb'_three_twelve_eq_zero_iff (w : Word) : w.extractLsb' 3 12 = 0#12 ↔ w.toNat % 32768 < 8 := by
  rw [← BitVec.toNat_inj, BitVec.extractLsb'_toNat, Nat.shiftRight_eq_div_pow, BitVec.toNat_ofNat]
  omega

/-- An operand that some raw word decodes to is well formed (R76). -/
theorem wf_of_decodeVal {w : Word} {o : Operand} (h : decodeVal w = .ok o) : o.wf = true :=
  (takeVal_cases (takeVal_ok h 0 [])).1

end Sys2Proof

namespace Sys2Proof.Machine

theorem State.decodeValue_of_ok (s : State) {w : Word} {o : Operand} (h : decodeVal w = .ok o) :
    s.decodeValue w = .ok (s.value o) := by simp [State.decodeValue, h]

theorem State.decodeValue_of_error (s : State) {w : Word} {e : DecodeError} (h : decodeVal w = .error e) :
    s.decodeValue w = .error e := by simp [State.decodeValue, h]

/-- What a general decode can do: if it answers a value, that is the value of a well-formed operand. -/
theorem State.decodeValue_cases {s : State} {w v : Word} (h : s.decodeValue w = .ok v) :
    ∃ o, o.wf = true ∧ v = s.value o := by
  cases hd : decodeVal w with
  | ok o =>
    rw [s.decodeValue_of_ok hd] at h
    exact ⟨o, wf_of_decodeVal hd, by simpa using h.symm⟩
  | error e =>
    rw [s.decodeValue_of_error hd] at h
    cases h

/-- Settles O25: the classes by the operand decoder's cases, the bit columns by arithmetic, and the bound because the
decoded operand is well formed. -/
theorem operandWordClasses : Obligations.OperandWordClasses := by
  unfold Obligations.OperandWordClasses
  refine ⟨fun s w => ⟨fun h => ?_, fun hlo hhi => ?_, fun h => ?_⟩, fun w => ?_, fun s w v hinv h => ?_⟩
  · exact ⟨s.decodeValue_of_ok (decodeVal_literal h), decodeDst_error (by omega)⟩
  · exact ⟨regOfWord w, regOfWord_val ⟨hlo, hhi⟩, s.decodeValue_of_ok (decodeVal_register ⟨hlo, hhi⟩),
      decodeDst_ok ⟨hlo, hhi⟩⟩
  · exact ⟨s.decodeValue_of_error (decodeVal_error (by omega)), decodeDst_error (by omega)⟩
  · have hw := w.isLt
    simp only [getLsbD_fifteen, ne_eq, extractLsb'_three_twelve_eq_zero_iff, BitVec.extractLsb'_toNat,
      Nat.shiftRight_zero, decide_eq_true_eq, decide_eq_false_iff_not]
    omega
  · obtain ⟨o, ho, rfl⟩ := State.decodeValue_cases h
    exact hinv.value_lt ho

/-! ### A failing decode (R79, R84; spec/60_exceptions.md R203) -/

/-- Settles O30: the step takes the fault of the failing check, and each check has its code and its word. -/
theorem failedDecodeTakesItsFault : Obligations.FailedDecodeTakesItsFault := by
  unfold Obligations.FailedDecodeTakesItsFault
  intro s e hen hd
  rw [step_of_decode_error hen hd]
  cases e <;> rfl

/-- The opcode map ends at 21 (R71, R79). -/
theorem decodeOp_of_le {op : Word} (h : 22 ≤ op.toNat) (ws : List Word) :
    decodeOp op ws = .error (.unknownOpcode op) := by
  obtain ⟨n, hn⟩ := Nat.exists_eq_add_of_le' h
  rw [decodeOp, hn]
  rfl

/-- The first word a step fetches is the word at pc, where memory has one. -/
theorem State.fetchWindow_eq_cons {s : State} (h : s.pc.toNat < s.cfg.memLen) :
    ∃ ws, s.fetchWindow = s.memRead s.pc.toNat :: ws :=
  ⟨_, if_pos h⟩

/-- Settles O28: the opcode word is the first word fetched, and the opcode map has no entry for it. -/
theorem unknownOpcodeFaults : Obligations.UnknownOpcodeFaults := by
  unfold Obligations.UnknownOpcodeFaults
  intro s hen hpc hop
  obtain ⟨ws, hws⟩ := State.fetchWindow_eq_cons hpc
  have hd : decodeWords s.fetchWindow = .error (.unknownOpcode (s.memRead s.pc.toNat)) := by
    rw [hws]
    exact decodeOp_of_le hop ws
  exact step_of_decode_error hen hd

end Sys2Proof.Machine

/-! PROOFS of the statements on the dispatcher (spec/40_dispatcher.md): when a step is taken and what it runs, the ends
of a step and the next pc, and what the input port's state reaches. -/

namespace Sys2Proof.Machine

/-! ### The meanings that have cases, one equation per case -/

section Meanings

variable {s : State}

theorem exec_mod_of_eq_zero (a : Reg) (b : Operand) {c : Operand} (h : s.value c = 0) :
    exec (.mod a b c) s = .next (s.takeFault .divideByZero c.encode) :=
  if_pos (by rw [h]; rfl)

theorem exec_mod_of_ne_zero (a : Reg) (b : Operand) {c : Operand} (h : s.value c ≠ 0) :
    exec (.mod a b c) s = .next (s.storeReg a (aluMod (s.value b) (s.value c)) 4) :=
  if_neg fun e => h (BitVec.eq_of_toNat_eq e)

theorem exec_rmem_of_le (a : Reg) {b : Operand} (h : s.cfg.memLen ≤ (s.value b).toNat) :
    exec (.rmem a b) s = .next (s.takeFault .memoryOutOfBounds (s.value b)) :=
  if_neg fun e => h.not_gt ((s.inMemory_iff _).1 e)

theorem exec_rmem_of_lt (a : Reg) {b : Operand} (h : (s.value b).toNat < s.cfg.memLen) :
    exec (.rmem a b) s = .next (s.storeReg a (s.memRead (s.value b).toNat).toNat 3) :=
  if_pos ((s.inMemory_iff _).2 h)

theorem exec_wmem_of_le {a : Operand} (b : Operand) (h : s.cfg.memLen ≤ (s.value a).toNat) :
    exec (.wmem a b) s = .next (s.takeFault .memoryOutOfBounds (s.value a)) :=
  if_neg fun e => h.not_gt ((s.inMemory_iff _).1 e)

theorem exec_pop_of_nil (a : Reg) (h : s.stack = []) : exec (.pop a) s = .next (s.terminate .stackEnd 2) := by
  simp only [exec, execPop, State.pop_of_nil h]

theorem exec_pop_of_concat (a : Reg) {st : List Word} {v : Word} (h : s.stack = st ++ [v]) :
    exec (.pop a) s =
      .next (s.rangeCheck v.toNat ((State.setReg { s with stack := st } a v).continueAt (s.pcAfter 2))) := by
  simp only [exec, execPop, State.pop_of_concat h]

theorem exec_ret_of_nil (h : s.stack = []) : exec .ret s = .next (s.terminate .stackEnd 1) := by
  simp only [exec, execRet, State.pop_of_nil h]

theorem exec_ret_of_concat {st : List Word} {v : Word} (h : s.stack = st ++ [v]) :
    exec .ret s = .next (State.continueAt { s with stack := st } v) := by
  simp only [exec, execRet, State.pop_of_concat h]

theorem exec_inChar_of_pending (a : Reg) (hb : s.inBuf = []) (hc : s.inClosed = false) :
    exec (.inChar a) s = .next s.hold := by
  simp only [exec, execIn, State.inPort_of_pending hb hc]

theorem exec_inChar_of_closed (a : Reg) (hb : s.inBuf = []) (hc : s.inClosed = true) :
    exec (.inChar a) s = .next (s.takeFault .inputExhausted 0) := by
  simp only [exec, execIn, State.inPort_of_closed hb hc]

theorem exec_inChar_of_cons (a : Reg) {c : Nat} {cs : List Nat} (hb : s.inBuf = c :: cs) :
    exec (.inChar a) s =
      .next (State.storeReg { s with inBuf := cs, inConsumed := s.inConsumed ++ [c] } a c 2) := by
  simp only [exec, execIn, State.inPort_of_cons hb]

end Meanings

/-! ### When a step is taken, and what it runs (R100, R101) -/

/-- Settles O31: an enabled step always answers a next state, by the meaning or by the fault of the failing check. -/
theorem stepsAreTakenOnlyWhileRunning : Obligations.StepsAreTakenOnlyWhileRunning := by
  unfold Obligations.StepsAreTakenOnlyWhileRunning
  intro s
  rw [← s.enabled_iff]
  refine ⟨fun ⟨_, h⟩ => (step_cases h).1, fun hen => ?_⟩
  rw [step_of_enabled hen]
  cases s.fetchDecode with
  | ok i => exact exec_next i s
  | error e => exact ⟨_, rfl⟩

theorem step_of_fetchDecode {s : State} {i : Instr} (hen : s.enabled = true) (hd : s.fetchDecode = .ok i) :
    step s = exec i s := by
  rw [step_of_enabled hen, hd]

/-- Where the words at pc are those of `i`, they are the first words the next step can fetch. -/
theorem State.fetchWindow_eq_encode_append {s : State} {i : Instr}
    (hw : ∀ k (h : k < (encode i).length),
      s.pc.toNat + k < s.cfg.memLen ∧ s.memRead (s.pc.toNat + k) = (encode i)[k]) :
    ∃ rest, s.fetchWindow = encode i ++ rest := by
  have hlen := encode_length_le i
  have hfirst : s.fetchWindow.take (encode i).length = encode i := by
    apply List.ext_getElem?
    intro k
    rw [List.getElem?_take]
    split
    · next hk =>
      obtain ⟨hlt, hread⟩ := hw k hk
      rw [State.fetchWindow_getElem?, if_pos ⟨by omega, hlt⟩, hread, List.getElem?_eq_getElem]
    · next hk => rw [List.getElem?_eq_none (not_lt.1 hk)]
  refine ⟨s.fetchWindow.drop (encode i).length, ?_⟩
  calc s.fetchWindow
    _ = s.fetchWindow.take (encode i).length ++ s.fetchWindow.drop (encode i).length :=
      (List.take_append_drop _ _).symm
    _ = _ := by rw [hfirst]

/-- Settles O27: the window starts with the words of the instruction, which decode to it whatever follows. -/
theorem stepRunsTheInstructionAtPc : Obligations.StepRunsTheInstructionAtPc := by
  unfold Obligations.StepRunsTheInstructionAtPc
  intro s i hwf hen hw
  obtain ⟨rest, hwin⟩ := State.fetchWindow_eq_encode_append hw
  exact step_of_fetchDecode hen (State.fetchDecode_of_decodeWords (hwin ▸ decodeOfEncode i rest hwf))

/-! ### The next pc and the ends of a step (R106 to R111) -/

/-- An instruction with a destination goes to the address after it. -/
theorem nextPc_of_destination {i : Instr} {d : Reg} (s : State) (hd : destination i = some d) :
    nextPc s i = s.pcAfter i.length := by
  cases i with
  | halt | push | jmp | jt | jf | wmem | call | ret | out | noop => cases hd
  | _ => rfl

/-- Where an instruction's effect leaves pc: at a0 after a fault or a hold, and otherwise where the table says. -/
theorem Effect.pc_eq {i : Instr} {s t : State} (he : Effect i s t) :
    t.pc = if t.runState = .faulted ∨ t.runState = .waitingInput then s.pc else nextPc s i := by
  cases he with
  | fault | hold | badChar | jump | push => rfl
  | write d _ hd => exact (nextPc_of_destination s hd).symm
  | store _ _ hi | pop _ _ _ hi | halt hi | out _ hi | char _ _ _ hi => subst hi; rfl
  | ret st v hi hs =>
    subst hi
    simp [nextPc, hs]
  | stackEnd n hi hs =>
    rcases hi with ⟨⟨d, rfl⟩, rfl⟩ | ⟨rfl, rfl⟩
    · rfl
    · simp [nextPc, hs, State.pcAfter]

/-- Settles O35, by cases on what an instruction can do. -/
theorem nextPcFollowsTheTable : Obligations.NextPcFollowsTheTable :=
  fun _ _ _ hx => (exec_effect hx).pc_eq

/-- The ends of an instruction: it continues, stops cleanly, holds or faults. -/
theorem Effect.ends {i : Instr} {s t : State} (he : Effect i s t) :
    t.runState = .running ∨
    (i = .halt ∧ t = s.terminate .halted 1) ∨
    (s.stack = [] ∧ ((i = .ret ∧ t = s.terminate .stackEnd 1) ∨ ∃ a, i = .pop a ∧ t = s.terminate .stackEnd 2)) ∨
    ((∃ a, i = .inChar a) ∧ s.inBuf = [] ∧ s.inClosed = false ∧ t = s.hold) ∨
    t.runState = .faulted := by
  cases he with
  | halt hi => exact .inr (.inl ⟨hi, rfl⟩)
  | stackEnd n hi hs =>
    refine .inr (.inr (.inl ⟨hs, ?_⟩))
    rcases hi with ⟨⟨d, rfl⟩, rfl⟩ | ⟨rfl, rfl⟩
    · exact .inr ⟨d, rfl, rfl⟩
    · exact .inl ⟨rfl, rfl⟩
  | hold d hi hb hc => exact .inr (.inr (.inr (.inl ⟨⟨d, hi⟩, hb, hc, rfl⟩)))
  | fault | badChar => exact .inr (.inr (.inr (.inr rfl)))
  | _ => exact .inl rfl

/-! ### The faults of a handler (spec/60_exceptions.md R202) -/

theorem State.storeReg_not_faulted {s : State} {d : Reg} {v n : Nat} (h : v < 32768) :
    (s.storeReg d v n).runState ≠ .faulted := by
  rw [s.storeReg_of_lt d n h]
  nofun

/-- A meaning that faults in a state of a run meets the condition of a `raise` line of its rule. -/
theorem State.Inv.raises {i : Instr} {s t : State} (h : s.Inv) (hwf : WellFormed i) (hx : exec i s = .next t)
    (hf : t.runState = .faulted) : Raises s t.faultCode t.faultWord i := by
  cases i with
  | halt | jmp | jt | jf | out | noop => cases hx; cases hf
  | set a b => cases hx; exact State.storeReg_not_faulted (h.value_lt hwf) hf
  | eq => cases hx; exact State.storeReg_not_faulted (aluEq_lt _ _) hf
  | gt => cases hx; exact State.storeReg_not_faulted (aluGt_lt _ _) hf
  | add => cases hx; exact State.storeReg_not_faulted (aluAdd_lt _ _) hf
  | mult => cases hx; exact State.storeReg_not_faulted (aluMult_lt _ _) hf
  | and =>
    obtain ⟨hb, -⟩ := Bool.and_eq_true_iff.1 hwf
    cases hx
    exact State.storeReg_not_faulted (aluAnd_lt _ (h.value_lt hb)) hf
  | or =>
    obtain ⟨hb, hc⟩ := Bool.and_eq_true_iff.1 hwf
    cases hx
    exact State.storeReg_not_faulted (aluOr_lt (h.value_lt hb) (h.value_lt hc)) hf
  | not => cases hx; exact State.storeReg_not_faulted (aluNot_lt (h.value_lt hwf)) hf
  | mod a b c =>
    obtain ⟨hb, -⟩ := Bool.and_eq_true_iff.1 hwf
    by_cases hc : s.value c = 0
    · cases (exec_mod_of_eq_zero a b hc).symm.trans hx
      exact ⟨hc, rfl, rfl⟩
    · cases (exec_mod_of_ne_zero a b hc).symm.trans hx
      exact absurd hf (State.storeReg_not_faulted (aluMod_lt _ (h.value_lt hb)))
  | push a =>
    cases hx
    rcases s.storePush_cases (s.value a).toNat (s.pcAfter 2) with ⟨-, -, e⟩ | ⟨-, hd, e⟩ | ⟨hv, -⟩
    · rw [e] at hf; cases hf
    · rw [e]; exact ⟨hd, rfl, ofNat_toNat_word _⟩
    · exact absurd (h.value_lt hwf) hv
  | call a =>
    cases hx
    rcases s.storePush_cases (s.pc.toNat + 2) (s.value a) with ⟨-, -, e⟩ | ⟨hv, hd, e⟩ | ⟨hv, e⟩
    · rw [e] at hf; cases hf
    · rw [e]; exact .inr ⟨hv, hd, rfl, by simp [BitVec.ofNat_add]⟩
    · rw [e]; exact .inl ⟨not_lt.1 hv, rfl, by simp [BitVec.ofNat_add]⟩
  | pop a =>
    rcases List.eq_nil_or_concat' s.stack with hs | ⟨st, v, hs⟩
    · cases (exec_pop_of_nil a hs).symm.trans hx
      cases hf
    · cases (exec_pop_of_concat a hs).symm.trans hx
      rw [s.rangeCheck_of_lt _ (h.stackBelow v (by simp [hs]))] at hf
      cases hf
  | ret =>
    rcases List.eq_nil_or_concat' s.stack with hs | ⟨st, v, hs⟩
    · cases (exec_ret_of_nil hs).symm.trans hx
      cases hf
    · cases (exec_ret_of_concat hs).symm.trans hx
      cases hf
  | rmem a b =>
    rcases le_or_gt s.cfg.memLen (s.value b).toNat with hm | hm
    · cases (exec_rmem_of_le a hm).symm.trans hx
      exact .inl ⟨hm, rfl, rfl⟩
    · cases (exec_rmem_of_lt a hm).symm.trans hx
      rcases s.storeReg_cases a (s.memRead (s.value b).toNat).toNat 3 with ⟨hv, -⟩ | ⟨hv, e⟩
      · exact absurd hf (State.storeReg_not_faulted hv)
      · rw [e]
        exact .inr ⟨hm, not_lt.1 hv, rfl, ofNat_toNat_word _⟩
  | wmem a b =>
    rcases le_or_gt s.cfg.memLen (s.value a).toNat with hm | hm
    · cases (exec_wmem_of_le b hm).symm.trans hx
      exact ⟨hm, rfl, rfl⟩
    · cases (exec_wmem_of_lt b hm).symm.trans hx
      cases hf
  | inChar a =>
    rcases s.inPort_cases with ⟨c, cs, hb, -⟩ | ⟨hb, hc, -⟩ | ⟨hb, hc, -⟩
    · cases (exec_inChar_of_cons a hb).symm.trans hx
      rcases State.storeReg_cases { s with inBuf := cs, inConsumed := s.inConsumed ++ [c] } a c 2 with
        ⟨hv, -⟩ | ⟨hv, e⟩
      · exact absurd hf (State.storeReg_not_faulted hv)
      · rw [e]
        exact .inr ⟨c, cs, hb, not_lt.1 hv, rfl, by simp [← BitVec.toNat_inj]⟩
    · cases (exec_inChar_of_closed a hb hc).symm.trans hx
      exact .inl ⟨hb, hc, rfl, rfl⟩
    · cases (exec_inChar_of_pending a hb hc).symm.trans hx
      cases hf

/-- Settles O32: the end of the decoded instruction, with the table's pc where it continues and its rule's `raise`
line where it faults, or the fault of the failing check. -/
theorem stepEndsInFourWays : Obligations.StepEndsInFourWays := by
  unfold Obligations.StepEndsInFourWays
  intro s t hstep
  obtain ⟨-, ⟨i, hd, hx⟩ | ⟨e, hd, rfl⟩⟩ := step_cases hstep
  · have he := exec_effect hx
    rcases he.ends with hr | ⟨rfl, rfl⟩ | ⟨hs, ⟨rfl, rfl⟩ | ⟨a, rfl, rfl⟩⟩ | ⟨⟨a, rfl⟩, hb, hc, rfl⟩ | hf
    · exact .inl ⟨hr, i, hd, hx, by simpa [hr] using he.pc_eq⟩
    · exact .inr (.inl ⟨rfl, hd, rfl⟩)
    · exact .inr (.inr (.inl ⟨rfl, hs, .inl ⟨hd, rfl⟩⟩))
    · exact .inr (.inr (.inl ⟨rfl, hs, .inr ⟨a, hd, rfl⟩⟩))
    · exact .inr (.inr (.inr (.inl ⟨rfl, ⟨a, hd⟩, hb, hc, rfl⟩)))
    · obtain ⟨hwf, -⟩ := State.wf_and_fits_of_fetchDecode hd
      exact .inr (.inr (.inr (.inr ⟨hf, .inr ⟨i, hd, hx, fun h => h.raises hwf hx hf⟩⟩)))
  · obtain ⟨c, w, -, heq⟩ := s.decodeFault_eq e
    exact .inr (.inr (.inr (.inr ⟨by rw [heq]; rfl, .inl ⟨e, hd, rfl⟩⟩)))

/-! ### The input port's state reaches no instruction but `in` (R115; spec/45_io.md R183) -/

/-- The state with another input buffer and another `closed`. -/
def State.withInput (s : State) (buf : List Nat) (closed : Bool) : State :=
  { s with inBuf := buf, inClosed := closed }

section WithInput

variable (s : State) (buf : List Nat) (closed : Bool)

theorem State.rangeCheck_withInput (v : Nat) (ok : State) :
    (s.withInput buf closed).rangeCheck v (ok.withInput buf closed) =
      (s.rangeCheck v ok).withInput buf closed := by
  by_cases hv : v < 32768
  · rw [State.rangeCheck_of_lt _ _ hv, State.rangeCheck_of_lt _ _ hv]
  · rw [State.rangeCheck_of_not_lt _ _ hv, State.rangeCheck_of_not_lt _ _ hv]
    rfl

theorem State.storeReg_withInput (d : Reg) (v n : Nat) :
    (s.withInput buf closed).storeReg d v n = (s.storeReg d v n).withInput buf closed :=
  s.rangeCheck_withInput buf closed v ((s.setReg d (BitVec.ofNat 16 v)).continueAt (s.pcAfter n))

theorem State.storePush_withInput (v : Nat) (t : Word) :
    (s.withInput buf closed).storePush v t = (s.storePush v t).withInput buf closed := by
  rcases s.storePush_cases v t with ⟨hv, hd, e⟩ | ⟨hv, hd, e⟩ | ⟨hv, e⟩ <;> rw [e]
  · exact State.storePush_of_room _ t hv hd
  · exact State.storePush_of_full _ t hv hd
  · exact State.storePush_of_not_lt _ t hv

/-- Every meaning but that of `in` commutes with a change of the input port's state. -/
theorem exec_withInput {i : Instr} {t : State} (hi : ∀ a, i ≠ .inChar a) (hx : exec i s = .next t) :
    exec i (s.withInput buf closed) = .next (t.withInput buf closed) := by
  cases i with
  | inChar a => exact absurd rfl (hi a)
  | halt | jmp | jt | jf | out | noop => cases hx; rfl
  | set | eq | gt | add | mult | and | or | not =>
    cases hx
    exact congrArg Host.Outcome.next (s.storeReg_withInput buf closed _ _ _)
  | push | call =>
    cases hx
    exact congrArg Host.Outcome.next (s.storePush_withInput buf closed _ _)
  | mod a b c =>
    by_cases hc : s.value c = 0
    · cases (exec_mod_of_eq_zero a b hc).symm.trans hx
      exact exec_mod_of_eq_zero (s := s.withInput buf closed) a b hc
    · cases (exec_mod_of_ne_zero a b hc).symm.trans hx
      rw [← State.storeReg_withInput]
      exact exec_mod_of_ne_zero (s := s.withInput buf closed) a b hc
  | rmem a b =>
    rcases le_or_gt s.cfg.memLen (s.value b).toNat with hm | hm
    · cases (exec_rmem_of_le a hm).symm.trans hx
      exact exec_rmem_of_le (s := s.withInput buf closed) a hm
    · cases (exec_rmem_of_lt a hm).symm.trans hx
      rw [← State.storeReg_withInput]
      exact exec_rmem_of_lt (s := s.withInput buf closed) a hm
  | wmem a b =>
    rcases le_or_gt s.cfg.memLen (s.value a).toNat with hm | hm
    · cases (exec_wmem_of_le b hm).symm.trans hx
      exact exec_wmem_of_le (s := s.withInput buf closed) b hm
    · cases (exec_wmem_of_lt b hm).symm.trans hx
      exact exec_wmem_of_lt (s := s.withInput buf closed) b hm
  | pop a =>
    rcases List.eq_nil_or_concat' s.stack with hs | ⟨st, v, hs⟩
    · cases (exec_pop_of_nil a hs).symm.trans hx
      exact exec_pop_of_nil (s := s.withInput buf closed) a hs
    · cases (exec_pop_of_concat a hs).symm.trans hx
      rw [← State.rangeCheck_withInput]
      exact exec_pop_of_concat (s := s.withInput buf closed) a hs
  | ret =>
    rcases List.eq_nil_or_concat' s.stack with hs | ⟨st, v, hs⟩
    · cases (exec_ret_of_nil hs).symm.trans hx
      exact exec_ret_of_nil (s := s.withInput buf closed) hs
    · cases (exec_ret_of_concat hs).symm.trans hx
      exact exec_ret_of_concat (s := s.withInput buf closed) hs

end WithInput

/-- Settles O46, instruction by instruction. -/
theorem inputReachesOnlyIn : Obligations.InputReachesOnlyIn :=
  fun _ s _ buf closed hi hx => exec_withInput s buf closed hi hx

/-! ### A held `in` is retried (R110) -/

theorem deliverLine_cases {line : List Nat} {s t : State} (h : deliverLine line s = .next t) :
    t = s.withInput (s.inBuf ++ line) s.inClosed := by
  unfold deliverLine at h
  split at h
  · cases h
  · split at h <;> cases h
    rfl

theorem closeInput_cases {rest : List Nat} {s t : State} (h : closeInput rest s = .next t) :
    t = s.withInput (s.inBuf ++ rest) true := by
  unfold closeInput at h
  split at h
  · next hc =>
    split at h <;> cases h
    next hr => rw [hr, List.append_nil, ← hc]; rfl
  · split at h <;> cases h
    rfl

/-- Settles O53: the held state decodes the same `in` again, whatever the host has done to the input. -/
theorem heldInputIsRetried : Obligations.HeldInputIsRetried := by
  unfold Obligations.HeldInputIsRetried
  intro s t a hen hd hb hc hstep
  rw [step_of_fetchDecode hen hd, exec_inChar_of_pending a hb hc] at hstep
  cases hstep
  have hretry : ∀ buf closed, step (s.hold.withInput buf closed) = exec (.inChar a) (s.hold.withInput buf closed) :=
    fun _ _ => step_of_fetchDecode rfl hd
  refine ⟨rfl, ?_, fun c cs u hlt hdel => ?_, fun u hclose => ?_⟩
  · exact (hretry s.inBuf s.inClosed).trans (exec_inChar_of_pending a hb hc)
  · cases deliverLine_cases hdel
    have hbuf : s.hold.inBuf ++ c :: cs = c :: cs := by simp [hb]
    rw [hretry, exec_inChar_of_cons a hbuf, State.storeReg_of_lt _ _ _ hlt]
    exact ⟨_, rfl, rfl, State.setReg_reg_self _ _ _, rfl, rfl⟩
  · cases closeInput_cases hclose
    have hbuf : s.hold.inBuf ++ [] = [] := by simp [hb]
    rw [hretry, exec_inChar_of_closed a hbuf rfl]

end Sys2Proof.Machine

/-! PROOFS of the statements on `set`, `push` and `pop` (spec/41_move_stack.md), and of the frames of the instructions
that share the stack and the input port with them: `call` and `in`. -/

namespace Sys2Proof.Machine

/-! ### `set`, `push` and `pop`, one equation per case (R120 to R122) -/

section MoveStack

variable {s : State}

theorem exec_set_of_inRange (a : Reg) {b : Operand} (h : s.InRange b) :
    exec (.set a b) s = .next ((s.setReg a (s.value b)).continueAt (s.pcAfter 3)) := by
  simp only [exec, execSet, s.storeReg_of_lt a 3 h, ofNat_toNat_word]

theorem exec_push_of_room {a : Operand} (h : s.InRange a) (hd : s.cfg.stackDepth ≠ some s.stack.length) :
    exec (.push a) s = .next ((s.push (s.value a)).continueAt (s.pcAfter 2)) := by
  simp only [exec, execPush, s.storePush_of_room _ h hd, ofNat_toNat_word]

theorem exec_push_of_full {a : Operand} (h : s.InRange a) (hd : s.cfg.stackDepth = some s.stack.length) :
    exec (.push a) s = .next (s.takeFault .stackOverflow (s.value a)) := by
  simp only [exec, execPush, s.storePush_of_full _ h hd, ofNat_toNat_word]

theorem exec_pop_of_concat_lt (a : Reg) {st : List Word} {v : Word} (h : s.stack = st ++ [v]) (hv : v.toNat < 32768) :
    exec (.pop a) s = .next ((State.setReg { s with stack := st } a v).continueAt (s.pcAfter 2)) := by
  rw [exec_pop_of_concat a h, s.rangeCheck_of_lt _ hv]

end MoveStack

/-- Settles O2: the range check passes, so the one register is written. -/
theorem setCopiesTheValue : Obligations.SetCopiesTheValue :=
  ⟨hasFormatF2DV_of (fun _ _ => rfl) (fun _ => rfl), fun a _ _ hb => exec_set_of_inRange a hb⟩

/-- Settles O3: the range check passes, so only the room on the stack decides. -/
theorem pushPushesOrOverflows : Obligations.PushPushesOrOverflows :=
  ⟨hasFormatF1V_of (fun _ => rfl) (fun _ => rfl), fun _ _ ha => ⟨exec_push_of_room ha, exec_push_of_full ha⟩⟩

/-- Settles O4: by the two cases of the stack. -/
theorem popTakesTheTopOrEnds : Obligations.PopTakesTheTopOrEnds :=
  ⟨hasFormatF1D_of (fun _ => rfl) (fun _ => rfl),
    fun a _ => ⟨exec_pop_of_nil a, fun _ _ hs hv => exec_pop_of_concat_lt a hs hv⟩⟩

/-- Settles O47: the entry `push` leaves on top is the one `pop` takes off. -/
theorem pushThenPopRestores : Obligations.PushThenPopRestores := by
  unfold Obligations.PushThenPopRestores
  refine ⟨fun s t v k hv hroom hpush => ?_, fun s k hs => ⟨_, exec_pop_of_nil k hs, rfl, rfl⟩⟩
  cases (exec_push_of_room (a := .literal v) hv hroom).symm.trans hpush
  exact ⟨_, exec_pop_of_concat_lt k rfl hv, rfl, rfl, State.setReg_reg_self _ k v,
    fun _ hne => State.setReg_reg_of_ne _ v hne⟩

/-! ### What `push` and `call` leave unchanged (R121, R158) -/

/-- `push` and `call` both end in `StorePush`: they push one value and continue, or fault with nothing written. -/
theorem exec_push_or_call_cases {a : Operand} {s t : State}
    (h : exec (.push a) s = .next t ∨ exec (.call a) s = .next t) :
    (∃ c w, t = s.takeFault c w) ∨ ∃ v w, t = (s.push v).continueAt w := by
  obtain ⟨v, w, rfl⟩ : ∃ v w, t = s.storePush v w := by
    rcases h with h | h <;> cases h <;> exact ⟨_, _, rfl⟩
  rcases s.storePush_cases v w with ⟨-, -, e⟩ | ⟨-, -, e⟩ | ⟨-, e⟩
  · exact .inr ⟨_, _, e⟩
  · exact .inl ⟨_, _, e⟩
  · exact .inl ⟨_, _, e⟩

/-- Neither pushing and continuing nor faulting writes a register or memory. -/
theorem push_or_call_frame {a : Operand} {s t : State}
    (h : exec (.push a) s = .next t ∨ exec (.call a) s = .next t) :
    SameRegs s t ∧ SameMemory s t ∧ SameInput s t ∧ t.cfg = s.cfg ∧ SameRecordUnlessFaulted s t := by
  rcases exec_push_or_call_cases h with ⟨c, w, rfl⟩ | ⟨v, w, rfl⟩
  · exact ⟨fun _ => rfl, fun _ => rfl, ⟨rfl, rfl, rfl⟩, rfl, .inl rfl⟩
  · exact ⟨fun _ => rfl, fun _ => rfl, ⟨rfl, rfl, rfl⟩, rfl, .inr ⟨rfl, rfl, rfl⟩⟩

/-- Settles O42, by the two ends of `StorePush`. -/
theorem frameOfPushAndCall : Obligations.FrameOfPushAndCall := by
  unfold Obligations.FrameOfPushAndCall
  refine ⟨fun a s t hx => push_or_call_frame (.inl hx), fun a s t hx => push_or_call_frame (.inr hx),
    fun a s t h => ?_⟩
  rcases exec_push_or_call_cases h with ⟨c, w, rfl⟩ | ⟨v, w, rfl⟩
  · exact ⟨rfl, fun _ => rfl, fun hne => absurd rfl hne⟩
  · exact ⟨rfl, nofun, fun _ => by simp⟩

/-! ### What `pop` and `in` leave unchanged (R122; spec/45_io.md R190) -/

/-- What `pop` can do: stop on an empty stack, move the top entry to its destination, or fault with nothing written. -/
theorem exec_pop_cases {a : Reg} {s t : State} (h : exec (.pop a) s = .next t) :
    (s.stack = [] ∧ t = s.terminate .stackEnd 2) ∨
    (∃ st v, s.stack = st ++ [v] ∧ t = (State.setReg { s with stack := st } a v).continueAt (s.pcAfter 2)) ∨
    ∃ c w, t = s.takeFault c w := by
  rcases List.eq_nil_or_concat' s.stack with hs | ⟨st, v, hs⟩
  · cases (exec_pop_of_nil a hs).symm.trans h
    exact .inl ⟨hs, rfl⟩
  · cases (exec_pop_of_concat a hs).symm.trans h
    by_cases hv : v.toNat < 32768
    · exact .inr (.inl ⟨st, v, hs, s.rangeCheck_of_lt _ hv⟩)
    · exact .inr (.inr ⟨_, _, s.rangeCheck_of_not_lt _ hv⟩)

/-- What `in` can do: hold or fault with nothing consumed, or consume one character and then store it or fault. -/
theorem exec_inChar_cases {a : Reg} {s t : State} (h : exec (.inChar a) s = .next t) :
    t = s.hold ∨ (∃ c w, t = s.takeFault c w) ∨
    ∃ c cs, s.inBuf = c :: cs ∧
      t = State.storeReg { s with inBuf := cs, inConsumed := s.inConsumed ++ [c] } a c 2 := by
  rcases s.inPort_cases with ⟨c, cs, hb, -⟩ | ⟨hb, hc, -⟩ | ⟨hb, hc, -⟩
  · cases (exec_inChar_of_cons a hb).symm.trans h
    exact .inr (.inr ⟨c, cs, hb, rfl⟩)
  · cases (exec_inChar_of_closed a hb hc).symm.trans h
    exact .inr (.inl ⟨_, _, rfl⟩)
  · cases (exec_inChar_of_pending a hb hc).symm.trans h
    exact .inl rfl

/-- Settles O41, by the cases of `pop` and of `in`; a consumed character goes from the head of the buffer to the end of
the consumed sequence, whether or not it can be stored. -/
theorem frameOfPopAndIn : Obligations.FrameOfPopAndIn := by
  unfold Obligations.FrameOfPopAndIn
  refine ⟨fun a s t hx => ?_, fun a s t hx => ?_⟩
  · rcases exec_pop_cases hx with ⟨hs, rfl⟩ | ⟨st, v, hs, rfl⟩ | ⟨c, w, rfl⟩
    · exact ⟨fun _ _ => rfl, fun _ => rfl, rfl, ⟨rfl, rfl, rfl⟩, rfl, .inr ⟨rfl, rfl, rfl⟩, nofun,
        fun _ => by simp [hs]⟩
    · exact ⟨fun _ hne => State.setReg_reg_of_ne _ v hne, fun _ => rfl, rfl, ⟨rfl, rfl, rfl⟩, rfl,
        .inr ⟨rfl, rfl, rfl⟩, nofun, fun _ => by simp [hs]⟩
    · exact ⟨fun _ _ => rfl, fun _ => rfl, rfl, ⟨rfl, rfl, rfl⟩, rfl, .inl rfl, fun _ => ⟨fun _ => rfl, rfl⟩,
        fun hne => absurd rfl hne⟩
  · rcases exec_inChar_cases hx with rfl | ⟨c, w, rfl⟩ | ⟨c, cs, hb, rfl⟩
    · exact ⟨fun _ _ => rfl, fun _ => rfl, rfl, rfl, rfl, rfl, rfl, .inr ⟨rfl, rfl, rfl⟩, fun _ _ => rfl⟩
    · exact ⟨fun _ _ => rfl, fun _ => rfl, rfl, rfl, rfl, rfl, rfl, .inl rfl, fun _ _ => rfl⟩
    · have hmoved : s.inConsumed ++ [c] ++ cs = s.inConsumed ++ s.inBuf := by simp [hb]
      rcases State.storeReg_cases { s with inBuf := cs, inConsumed := s.inConsumed ++ [c] } a c 2 with
        ⟨-, e⟩ | ⟨-, e⟩ <;> rw [e]
      · exact ⟨fun _ hne => State.setReg_reg_of_ne _ _ hne, fun _ => rfl, rfl, rfl, rfl, rfl, hmoved,
          .inr ⟨rfl, rfl, rfl⟩, nofun⟩
      · exact ⟨fun _ _ => rfl, fun _ => rfl, rfl, rfl, rfl, rfl, hmoved, .inl rfl, fun _ _ => rfl⟩

end Sys2Proof.Machine

/-! PROOFS of the statements on the arithmetic instructions (spec/42_alu.md): what each writes, the integer laws of the
arithmetic unit, and subtraction composed from `not` and `add`. -/

namespace Sys2Proof.Machine

/-! ### The arithmetic unit (R131 to R139) -/

theorem truth_eq_one_iff {p : Prop} [Decidable p] : truth (decide p) = 1 ↔ p := by simp [truth]

theorem truth_eq_zero_iff {p : Prop} [Decidable p] : truth (decide p) = 0 ↔ ¬ p := by simp [truth]

theorem ofNat_truth (p : Prop) [Decidable p] : BitVec.ofNat 16 (truth (decide p)) = if p then 1 else 0 := by
  by_cases h : p <;> simp [truth, h]

theorem ofNat_aluEq (b c : Word) : BitVec.ofNat 16 (aluEq b c) = if b = c then 1 else 0 := by
  simp only [aluEq, ofNat_truth, BitVec.toNat_inj]

theorem ofNat_aluGt (b c : Word) : BitVec.ofNat 16 (aluGt b c) = if c.toNat < b.toNat then 1 else 0 :=
  ofNat_truth _

theorem ofNat_aluAnd (b c : Word) : BitVec.ofNat 16 (aluAnd b c) = b &&& c := ofNat_toNat_word _

theorem ofNat_aluOr (b c : Word) : BitVec.ofNat 16 (aluOr b c) = b ||| c := ofNat_toNat_word _

theorem ofNat_aluNot (b : Word) : BitVec.ofNat 16 (aluNot b) = 0x7FFF#16 ^^^ b := ofNat_toNat_word _

theorem aluEq_eq_one_iff {b c : Word} : aluEq b c = 1 ↔ b = c := truth_eq_one_iff.trans BitVec.toNat_inj

theorem aluEq_eq_zero_iff {b c : Word} : aluEq b c = 0 ↔ b ≠ c := truth_eq_zero_iff.trans BitVec.toNat_inj.not

theorem aluGt_eq_one_iff {b c : Word} : aluGt b c = 1 ↔ c.toNat < b.toNat := truth_eq_one_iff

theorem aluGt_eq_zero_iff {b c : Word} : aluGt b c = 0 ↔ b.toNat ≤ c.toNat := truth_eq_zero_iff.trans not_lt

/-- Flipping the low 15 bits subtracts from 32767 (R138): bit by bit, `2 ^ 15 - (b + 1)` is the complement of `b`. -/
theorem aluNot_eq_sub {b : Word} (h : b.toNat < 32768) : aluNot b = 32767 - b.toNat := by
  rw [aluNot, BitVec.toNat_xor]
  apply Nat.eq_of_testBit_eq
  intro i
  have hsub : (32767 - b.toNat).testBit i = (decide (i < 15) && !b.toNat.testBit i) := by
    rw [← Nat.testBit_two_pow_sub_succ (n := 15) h i]
    congr 1
    omega
  have hones : (0x7FFF#16).toNat.testBit i = decide (i < 15) := Nat.testBit_two_pow_sub_one 15 i
  have hhigh : 15 ≤ i → b.toNat.testBit i = false := fun hi =>
    Nat.testBit_lt_two_pow (h.trans_le (Nat.pow_le_pow_right (n := 2) (by decide) hi))
  rw [Nat.testBit_xor, hsub, hones]
  by_cases hi : i < 15
  · simp [hi]
  · simp [hi, hhigh (not_lt.1 hi)]

/-- `not` undoes itself: its word is read back whole. -/
theorem aluNot_aluNot {b : Word} (h : b.toNat < 32768) : aluNot (BitVec.ofNat 16 (aluNot b)) = b.toNat := by
  have hword : (BitVec.ofNat 16 (aluNot b)).toNat = 32767 - b.toNat := by
    rw [toNat_ofNat_word ((aluNot_lt h).trans (by decide)), aluNot_eq_sub h]
  rw [aluNot_eq_sub (by omega), hword]
  omega

theorem aluMod_eq_sub (b c : Word) : aluMod b c = b.toNat - c.toNat * (b.toNat / c.toNat) := Nat.mod_eq_sub _ _

theorem aluAnd_comm (b c : Word) : aluAnd b c = aluAnd c b := by rw [aluAnd, BitVec.and_comm, aluAnd]

theorem aluOr_comm (b c : Word) : aluOr b c = aluOr c b := by rw [aluOr, BitVec.or_comm, aluOr]

theorem aluAnd_assoc (b c d : Word) :
    aluAnd (BitVec.ofNat 16 (aluAnd b c)) d = aluAnd b (BitVec.ofNat 16 (aluAnd c d)) := by
  rw [ofNat_aluAnd, ofNat_aluAnd, aluAnd, aluAnd, BitVec.and_assoc]

theorem aluOr_assoc (b c d : Word) :
    aluOr (BitVec.ofNat 16 (aluOr b c)) d = aluOr b (BitVec.ofNat 16 (aluOr c d)) := by
  rw [ofNat_aluOr, ofNat_aluOr, aluOr, aluOr, BitVec.or_assoc]

/-- Settles O51, by the unit's laws one by one; the last law is the zero divisor's case of `mod`. -/
theorem arithmeticUnitLaws : Obligations.ArithmeticUnitLaws := by
  unfold Obligations.ArithmeticUnitLaws
  refine ⟨fun b c d hb hc _ => ⟨rfl, rfl, aluNot_aluNot hb, aluNot_eq_sub hb, aluEq_eq_one_iff, aluEq_eq_zero_iff,
    aluGt_eq_one_iff, aluGt_eq_zero_iff, fun _ => aluMod_eq_sub b c, aluAnd_comm b c, aluOr_comm b c,
    aluAnd_assoc b c d, aluOr_assoc b c d, aluAnd_lt c hb, aluOr_lt hb hc⟩, fun a b c s t hc hx => ?_⟩
  cases (exec_mod_of_eq_zero a b hc).symm.trans hx
  exact ⟨rfl, rfl⟩

/-! ### The meanings: a result below 32768 passes the range check, so the one register is written (R131 to R138) -/

section Meanings

variable {s : State}

theorem exec_eq (a : Reg) (b c : Operand) :
    exec (.eq a b c) s =
      .next ((s.setReg a (if s.value b = s.value c then 1 else 0)).continueAt (s.pcAfter 4)) := by
  simp only [exec, execEq, s.storeReg_of_lt a 4 (aluEq_lt _ _), ofNat_aluEq]

theorem exec_gt (a : Reg) (b c : Operand) :
    exec (.gt a b c) s =
      .next ((s.setReg a (if (s.value c).toNat < (s.value b).toNat then 1 else 0)).continueAt (s.pcAfter 4)) := by
  simp only [exec, execGt, s.storeReg_of_lt a 4 (aluGt_lt _ _), ofNat_aluGt]

theorem exec_add (a : Reg) (b c : Operand) :
    exec (.add a b c) s =
      .next ((s.setReg a (BitVec.ofNat 16 (aluAdd (s.value b) (s.value c)))).continueAt (s.pcAfter 4)) := by
  simp only [exec, execAdd, s.storeReg_of_lt a 4 (aluAdd_lt _ _)]

theorem exec_mult (a : Reg) (b c : Operand) :
    exec (.mult a b c) s =
      .next ((s.setReg a (BitVec.ofNat 16 (aluMult (s.value b) (s.value c)))).continueAt (s.pcAfter 4)) := by
  simp only [exec, execMult, s.storeReg_of_lt a 4 (aluMult_lt _ _)]

theorem exec_mod_of_inRange (a : Reg) {b c : Operand} (hb : s.InRange b) (h : s.value c ≠ 0) :
    exec (.mod a b c) s =
      .next ((s.setReg a (BitVec.ofNat 16 (aluMod (s.value b) (s.value c)))).continueAt (s.pcAfter 4)) := by
  rw [exec_mod_of_ne_zero a b h, s.storeReg_of_lt a 4 (aluMod_lt _ hb)]

theorem exec_and_of_inRange (a : Reg) {b : Operand} (c : Operand) (hb : s.InRange b) :
    exec (.and a b c) s = .next ((s.setReg a (s.value b &&& s.value c)).continueAt (s.pcAfter 4)) := by
  simp only [exec, execAnd, s.storeReg_of_lt a 4 (aluAnd_lt _ hb), ofNat_aluAnd]

theorem exec_or_of_inRange (a : Reg) {b c : Operand} (hb : s.InRange b) (hc : s.InRange c) :
    exec (.or a b c) s = .next ((s.setReg a (s.value b ||| s.value c)).continueAt (s.pcAfter 4)) := by
  simp only [exec, execOr, s.storeReg_of_lt a 4 (aluOr_lt hb hc), ofNat_aluOr]

theorem exec_not_of_inRange (a : Reg) {b : Operand} (hb : s.InRange b) :
    exec (.not a b) s = .next ((s.setReg a (0x7FFF#16 ^^^ s.value b)).continueAt (s.pcAfter 3)) := by
  simp only [exec, execNot, s.storeReg_of_lt a 3 (aluNot_lt hb), ofNat_aluNot]

end Meanings

/-- Settles O5: the stored word is the comparison's 0-or-1 result. -/
theorem eqWritesOneIfEqual : Obligations.EqWritesOneIfEqual :=
  ⟨hasFormatF3DVV_of (fun _ _ _ => rfl) (fun _ => rfl), fun a b c _ => exec_eq a b c⟩

/-- Settles O6: the stored word is the comparison's 0-or-1 result. -/
theorem gtWritesOneIfGreater : Obligations.GtWritesOneIfGreater :=
  ⟨hasFormatF3DVV_of (fun _ _ _ => rfl) (fun _ => rfl), fun a b c _ => exec_gt a b c⟩

/-- Settles O10: a sum reduced mod 32768 passes the range check. -/
theorem addWritesSumMod32768 : Obligations.AddWritesSumMod32768 :=
  ⟨hasFormatF3DVV_of (fun _ _ _ => rfl) (fun _ => rfl), fun a b c _ => exec_add a b c⟩

/-- Settles O11: a product reduced mod 32768 passes the range check. -/
theorem multWritesProductMod32768 : Obligations.MultWritesProductMod32768 :=
  ⟨hasFormatF3DVV_of (fun _ _ _ => rfl) (fun _ => rfl), fun a b c _ => exec_mult a b c⟩

/-- Settles O12: by whether the divisor is zero; a remainder is no larger than B. -/
theorem modWritesRemainderOrFaults : Obligations.ModWritesRemainderOrFaults :=
  ⟨hasFormatF3DVV_of (fun _ _ _ => rfl) (fun _ => rfl),
    fun a b _ _ hb _ => ⟨exec_mod_of_inRange a hb, exec_mod_of_eq_zero a b⟩⟩

/-- Settles O13: bit 15 of the result is clear because it is clear in B. -/
theorem andWritesBitwiseAnd : Obligations.AndWritesBitwiseAnd :=
  ⟨hasFormatF3DVV_of (fun _ _ _ => rfl) (fun _ => rfl), fun a _ c _ hb _ => exec_and_of_inRange a c hb⟩

/-- Settles O14: bit 15 of the result is clear because it is clear in B and in C. -/
theorem orWritesBitwiseOr : Obligations.OrWritesBitwiseOr :=
  ⟨hasFormatF3DVV_of (fun _ _ _ => rfl) (fun _ => rfl), fun a _ _ _ hb hc => exec_or_of_inRange a hb hc⟩

/-- Settles O15: the complement of 15 bits is `32767 - B`, so it passes the range check. -/
theorem notWritesFifteenBitComplement : Obligations.NotWritesFifteenBitComplement :=
  ⟨hasFormatF2DV_of (fun _ _ => rfl) (fun _ => rfl), fun a b s hb =>
    ⟨by rw [← aluNot_eq_sub hb, ofNat_aluNot], exec_not_of_inRange a hb⟩⟩

/-! ### Subtraction by composition (R140) -/

/-- An operand that is not the destination register has the same value after the instruction. -/
theorem value_of_exec {i : Instr} {s t : State} {e : Reg} {o : Operand} (h : exec i s = .next t)
    (hd : destination i = some e) (ho : o ≠ .register e) : t.value o = s.value o := by
  cases o with
  | literal w => rfl
  | register r => exact (exec_effect h).reg_eq fun hr => ho (congrArg _ (Option.some.inj (hr.symm.trans hd)))

theorem toNat_reg_of_exec_add {a : Reg} {b c : Operand} {s t : State} (h : exec (.add a b c) s = .next t) :
    (t.reg a).toNat = ((s.value b).toNat + (s.value c).toNat) % 32768 := by
  cases (exec_add a b c).symm.trans h
  rw [State.continueAt_reg, State.setReg_reg_self, toNat_ofNat_word ((aluAdd_lt _ _).trans (by decide)), aluAdd]

theorem toNat_reg_of_exec_not {a : Reg} {b : Operand} {s t : State} (hb : s.InRange b)
    (h : exec (.not a b) s = .next t) : (t.reg a).toNat = 32767 - (s.value b).toNat := by
  cases (exec_not_of_inRange a hb).symm.trans h
  rw [State.continueAt_reg, State.setReg_reg_self, ← aluNot_eq_sub hb, aluNot]

/-- Settles O50: the first two instructions leave `-C` in the intermediate register and the minuend alone, so the third
adds `B` and `-C`. -/
theorem subtractionByComposition : Obligations.SubtractionByComposition := by
  unfold Obligations.SubtractionByComposition
  intro s t u w d e b c hb hc hbe hnot hadd hsum
  have hminuend : u.value b = s.value b := (value_of_exec hadd rfl hbe).trans (value_of_exec hnot rfl hbe)
  have hcomplement : (t.reg e).toNat = 32767 - (s.value c).toNat := toNat_reg_of_exec_not hc hnot
  have hnegated : (u.reg e).toNat = (32768 - (s.value c).toNat) % 32768 := by
    calc (u.reg e).toNat = ((t.reg e).toNat + 1) % 32768 := toNat_reg_of_exec_add hadd
      _ = (32768 - (s.value c).toNat) % 32768 := by omega
  refine ⟨hnegated, ?_⟩
  calc (w.reg d).toNat = ((u.value b).toNat + (u.reg e).toNat) % 32768 := toNat_reg_of_exec_add hsum
    _ = ((s.value b).toNat + 32768 - (s.value c).toNat) % 32768 := by rw [hminuend]; omega

end Sys2Proof.Machine

/-! PROOFS of the statements on control flow (spec/43_control.md): the meanings case by case, what they and `out` leave
unchanged, and that `ret` returns behind its `call`. -/

namespace Sys2Proof.Machine

/-! ### The meanings that have cases, one equation per case (R153, R154, R158) -/

section Meanings

variable {s : State}

theorem exec_jt_of_ne_zero {a : Operand} (b : Operand) (h : s.value a ≠ 0) :
    exec (.jt a b) s = .next (s.continueAt (s.value b)) := by
  rw [exec, execJt, if_pos ((testNonzero_iff _).2 h)]

theorem exec_jt_of_eq_zero {a : Operand} (b : Operand) (h : s.value a = 0) :
    exec (.jt a b) s = .next (s.continueAt (s.pcAfter 3)) := by
  rw [exec, execJt, if_neg fun e => (testNonzero_iff _).1 e h]

theorem exec_jf_of_ne_zero {a : Operand} (b : Operand) (h : s.value a ≠ 0) :
    exec (.jf a b) s = .next (s.continueAt (s.pcAfter 3)) := by
  rw [exec, execJf, if_pos ((testNonzero_iff _).2 h)]

theorem exec_jf_of_eq_zero {a : Operand} (b : Operand) (h : s.value a = 0) :
    exec (.jf a b) s = .next (s.continueAt (s.value b)) := by
  rw [exec, execJf, if_neg fun e => (testNonzero_iff _).1 e h]

/-- The word of the return address. -/
theorem ofNat_toNat_add_two (w : Word) : BitVec.ofNat 16 (w.toNat + 2) = w + 2 := by
  simp [BitVec.ofNat_add]

/-- The return address that `call` has checked is not reduced. -/
theorem toNat_add_two {w : Word} (h : w.toNat + 2 < 32768) : (w + 2).toNat = w.toNat + 2 := by
  rw [← ofNat_toNat_add_two, toNat_ofNat_word (by omega)]

theorem exec_call_of_le (a : Operand) (h : 32768 ≤ s.pc.toNat + 2) :
    exec (.call a) s = .next (s.takeFault .storedValueOutOfRange (BitVec.ofNat 16 (s.pc.toNat + 2))) :=
  congrArg Host.Outcome.next (s.storePush_of_not_lt _ (not_lt.2 h))

theorem exec_call_of_full (a : Operand) (h : s.pc.toNat + 2 < 32768) (hd : s.cfg.stackDepth = some s.stack.length) :
    exec (.call a) s = .next (s.takeFault .stackOverflow (s.pc + 2)) := by
  rw [exec, execCall, s.storePush_of_full _ h hd, ofNat_toNat_add_two]

theorem exec_call_of_room (a : Operand) (h : s.pc.toNat + 2 < 32768) (hd : s.cfg.stackDepth ≠ some s.stack.length) :
    exec (.call a) s = .next ((s.push (s.pc + 2)).continueAt (s.value a)) := by
  rw [exec, execCall, s.storePush_of_room _ h hd, ofNat_toNat_add_two]

end Meanings

/-! ### What each instruction does -/

/-- Settles O18: the range check comes first, then the room on the stack decides. -/
theorem callPushesReturnAddress : Obligations.CallPushesReturnAddress :=
  ⟨hasFormatF1V_of (fun _ => rfl) (fun _ => rfl),
    fun a _ => ⟨exec_call_of_le a, exec_call_of_full a, exec_call_of_room a⟩⟩

/-- Settles O19: by the two cases of the stack. -/
theorem retReturnsOrEnds : Obligations.RetReturnsOrEnds :=
  ⟨⟨rfl, fun _ => rfl⟩, fun _ => ⟨exec_ret_of_nil, fun _ _ => exec_ret_of_concat⟩⟩

/-- Settles O1: `halt` has one case, which the meaning writes out. -/
theorem haltStopsCleanly : Obligations.HaltStopsCleanly :=
  ⟨⟨rfl, fun _ => rfl⟩, fun _ => rfl⟩

/-- Settles O7: `jmp` has one case, which the meaning writes out. -/
theorem jmpGoesToItsTarget : Obligations.JmpGoesToItsTarget :=
  ⟨hasFormatF1V_of (fun _ => rfl) (fun _ => rfl), fun _ _ => rfl⟩

/-- Settles O8: by whether the test is 0. -/
theorem jtJumpsIfNonzero : Obligations.JtJumpsIfNonzero :=
  ⟨hasFormatF2VV_of (fun _ _ => rfl) (fun _ => rfl), fun _ b _ => ⟨exec_jt_of_ne_zero b, exec_jt_of_eq_zero b⟩⟩

/-- Settles O9: by whether the test is 0. -/
theorem jfJumpsIfZero : Obligations.JfJumpsIfZero :=
  ⟨hasFormatF2VV_of (fun _ _ => rfl) (fun _ => rfl), fun _ b _ => ⟨exec_jf_of_eq_zero b, exec_jf_of_ne_zero b⟩⟩

/-- Settles O22: `noop` has one case, which the meaning writes out. -/
theorem noopOnlyAdvances : Obligations.NoopOnlyAdvances :=
  ⟨⟨rfl, fun _ => rfl⟩, fun _ => rfl⟩

/-! ### What the control instructions and `out` leave unchanged -/

/-- An instruction that changes at most the stack, the output, pc and RUN_STATE writes no register and no memory. -/
theorem writesNoRegisterOrMemory_of {i : Instr}
    (h : ∀ s : State, ∃ st out w r,
      exec i s = .next { s with stack := st, output := out, pc := w, runState := r }) :
    WritesNoRegisterOrMemory i := by
  intro s t hx
  obtain ⟨st, out, w, r, e⟩ := h s
  cases e.symm.trans hx
  exact ⟨fun _ => rfl, fun _ => rfl, ⟨rfl, rfl, rfl⟩, rfl, .inr ⟨rfl, rfl, rfl⟩⟩

/-- Whether it returns or ends the run, `ret` leaves the stack without its top, and changes pc and RUN_STATE besides. -/
theorem exec_ret_eq_dropLast (s : State) :
    ∃ w r, exec .ret s = .next { s with stack := s.stack.dropLast, pc := w, runState := r } := by
  rcases List.eq_nil_or_concat' s.stack with hs | ⟨st, v, hs⟩
  · have htop : s.stack.dropLast = s.stack := by rw [hs, List.dropLast_nil]
    rw [htop]
    exact ⟨_, _, exec_ret_of_nil hs⟩
  · have htop : s.stack.dropLast = st := by rw [hs, List.dropLast_concat]
    rw [htop]
    exact ⟨_, _, exec_ret_of_concat hs⟩

/-- Settles O43: the next state of each is `s` with at most pc, RUN_STATE and, for `ret`, the stack and, for `out`, the
output set. -/
theorem frameOfControlAndOut : Obligations.FrameOfControlAndOut := by
  unfold Obligations.FrameOfControlAndOut
  refine ⟨?halt, ?jmp, ?jt, ?jf, ?ret, ?out, ?noop, ?stackKept, ?outputKept, ?retStack, ?outOutput⟩
  case halt => exact writesNoRegisterOrMemory_of fun _ => ⟨_, _, _, _, rfl⟩
  case jmp => exact fun _ => writesNoRegisterOrMemory_of fun _ => ⟨_, _, _, _, rfl⟩
  case jt => exact fun _ _ => writesNoRegisterOrMemory_of fun _ => ⟨_, _, _, _, rfl⟩
  case jf => exact fun _ _ => writesNoRegisterOrMemory_of fun _ => ⟨_, _, _, _, rfl⟩
  case ret =>
    refine writesNoRegisterOrMemory_of fun s => ?_
    obtain ⟨w, r, e⟩ := exec_ret_eq_dropLast s
    exact ⟨_, _, w, r, e⟩
  case out => exact fun _ => writesNoRegisterOrMemory_of fun _ => ⟨_, _, _, _, rfl⟩
  case noop => exact writesNoRegisterOrMemory_of fun _ => ⟨_, _, _, _, rfl⟩
  case stackKept =>
    intro i s t hi hx
    rcases hi with rfl | ⟨a, rfl⟩ | ⟨a, b, rfl⟩ | ⟨a, b, rfl⟩ | rfl | ⟨a, rfl⟩ <;> cases hx <;> rfl
  case outputKept =>
    intro i s t hi hx
    rcases hi with rfl | ⟨a, rfl⟩ | ⟨a, b, rfl⟩ | ⟨a, b, rfl⟩ | rfl | rfl
    pick_goal 6
    · obtain ⟨w, r, e⟩ := exec_ret_eq_dropLast s
      cases e.symm.trans hx
      rfl
    all_goals
      cases hx
      rfl
  case retStack =>
    intro s t hx
    obtain ⟨w, r, e⟩ := exec_ret_eq_dropLast s
    cases e.symm.trans hx
    rfl
  case outOutput =>
    intro a s t hx
    cases hx
    rfl

/-! ### `ret` returns behind its `call` (R157) -/

/-- A `ret` that finds the stack as a `call` left it returns to the word after the call, and takes the call's entry
off. -/
theorem exec_ret_of_call {s t u : State} {a : Operand} (hpc : s.pc.toNat + 2 < 32768)
    (hroom : s.cfg.stackDepth ≠ some s.stack.length) (hcall : exec (.call a) s = .next t) (hu : u.stack = t.stack) :
    exec .ret u = .next (State.continueAt { u with stack := s.stack } (s.pc + 2)) := by
  cases (exec_call_of_room a hpc hroom).symm.trans hcall
  exact exec_ret_of_concat hu

/-- Settles O48: each `ret` undoes its own `call`, so after the inner one the stack is again what the outer call made
it. -/
theorem callThenRetReturns : Obligations.CallThenRetReturns := by
  unfold Obligations.CallThenRetReturns
  refine ⟨fun s t u a hpc hroom hcall hu => ?_, ?_⟩
  · exact ⟨_, exec_ret_of_call hpc hroom hcall hu, toNat_add_two hpc, rfl, rfl⟩
  · intro s t s' t' u v a b hpc hroom hcall hs' hpc' hroom' hcall' hu hret
    cases (exec_ret_of_call hpc' hroom' hcall' hu).symm.trans hret
    refine ⟨toNat_add_two hpc', fun v' hv' => ?_⟩
    have houter : v'.stack = t.stack := hv'.trans hs'
    exact ⟨_, exec_ret_of_call hpc hroom hcall houter, toNat_add_two hpc, rfl⟩

end Sys2Proof.Machine

/-! PROOFS of the statements on `rmem` and `wmem` (spec/44_memory_access.md): what each does case by case, what `wmem`
leaves unchanged, and that `rmem` reads back what `wmem` wrote. -/

namespace Sys2Proof.Machine

/-! ### Below MEM_LEN, the word read decides what `rmem` does (R170) -/

section Meanings

variable {s : State}

theorem exec_rmem_of_word_lt (a : Reg) {b : Operand} (hb : (s.value b).toNat < s.cfg.memLen)
    (hw : (s.memRead (s.value b).toNat).toNat < 32768) :
    exec (.rmem a b) s = .next ((s.setReg a (s.memRead (s.value b).toNat)).continueAt (s.pcAfter 3)) := by
  rw [exec_rmem_of_lt a hb, s.storeReg_of_lt a 3 hw, ofNat_toNat_word]

theorem exec_rmem_of_word_le (a : Reg) {b : Operand} (hb : (s.value b).toNat < s.cfg.memLen)
    (hw : 32768 ≤ (s.memRead (s.value b).toNat).toNat) :
    exec (.rmem a b) s = .next (s.takeFault .storedValueOutOfRange (s.memRead (s.value b).toNat)) := by
  rw [exec_rmem_of_lt a hb, s.storeReg_of_not_lt a 3 (not_lt.2 hw), ofNat_toNat_word]

end Meanings

/-! ### What `rmem` and `wmem` do -/

/-- Settles O16: the bounds check comes first, then the range check of the word read. -/
theorem rmemReadsOrFaults : Obligations.RmemReadsOrFaults :=
  ⟨hasFormatF2DV_of (fun _ _ => rfl) (fun _ => rfl),
    fun a _ _ => ⟨exec_rmem_of_le a, exec_rmem_of_word_le a, exec_rmem_of_word_lt a⟩⟩

/-- The words memory reads after a `wmem` below MEM_LEN. -/
theorem memRead_of_exec_wmem {s t : State} {a b : Operand} (hm : s.mem.wf) (ha : (s.value a).toNat < s.cfg.memLen)
    (hx : exec (.wmem a b) s = .next t) (k : Nat) :
    t.memRead k = if k = (s.value a).toNat then s.value b else s.memRead k := by
  cases (exec_wmem_of_lt b ha).symm.trans hx
  exact State.memWrite_memRead hm _ _ k

/-- Settles O17: by the bounds check; below MEM_LEN a word reads as B at address A and as before elsewhere. -/
theorem wmemWritesOrFaults : Obligations.WmemWritesOrFaults := by
  unfold Obligations.WmemWritesOrFaults
  refine ⟨hasFormatF2VV_of (fun _ _ => rfl) (fun _ => rfl), fun a b s => ⟨exec_wmem_of_le b, fun ha hm => ?_⟩⟩
  have hx := exec_wmem_of_lt b ha
  refine ⟨_, hx, rfl, ?_, fun k hk => ?_⟩
  · rw [memRead_of_exec_wmem hm ha hx, if_pos rfl]
  · rw [memRead_of_exec_wmem hm ha hx, if_neg hk]

/-! ### What `wmem` leaves unchanged -/

/-- Settles O44: `wmem` faults with nothing written, or writes the two bytes of one word and continues. -/
theorem frameOfWmem : Obligations.FrameOfWmem := by
  unfold Obligations.FrameOfWmem
  intro a b s t hx
  rcases le_or_gt s.cfg.memLen (s.value a).toNat with ha | ha
  · cases (exec_wmem_of_le b ha).symm.trans hx
    exact ⟨fun _ _ _ => rfl, fun _ _ => rfl, fun _ => rfl, rfl, rfl, ⟨rfl, rfl, rfl⟩, rfl, .inl rfl⟩
  · cases (exec_wmem_of_lt b ha).symm.trans hx
    exact ⟨fun _ hlo hhi => s.mem.readByte_writeWord_of_ne _ hlo hhi, nofun, fun _ => rfl, rfl, rfl,
      ⟨rfl, rfl, rfl⟩, rfl, .inr ⟨rfl, rfl, rfl⟩⟩

/-! ### `rmem` reads back what `wmem` wrote (R172) -/

theorem cfg_of_exec_wmem {s t : State} {a b : Operand} (hx : exec (.wmem a b) s = .next t) : t.cfg = s.cfg := by
  obtain ⟨-, -, -, -, -, -, hcfg, -⟩ := frameOfWmem a b s t hx
  exact hcfg

/-- Settles O49: the address is still below MEM_LEN, and the word read there is the value written, which passes the
range check. -/
theorem readAfterWriteGivesTheValue : Obligations.ReadAfterWriteGivesTheValue := by
  unfold Obligations.ReadAfterWriteGivesTheValue
  intro s t k addr v hm ha hv hx
  have hread : t.memRead addr.toNat = v :=
    (memRead_of_exec_wmem (a := .literal addr) hm ha hx addr.toNat).trans (if_pos rfl)
  have haddr : addr.toNat < t.cfg.memLen := by rwa [cfg_of_exec_wmem hx]
  refine ⟨_, exec_rmem_of_word_lt k (b := .literal addr) haddr (by rwa [State.value_literal, hread]), rfl, ?_⟩
  rw [State.continueAt_reg, State.setReg_reg_self, State.value_literal, hread]

end Sys2Proof.Machine

/-! PROOFS of the statements on the ports (spec/45_io.md): what `out` and `in` do, what the host may do to the input,
and that no schedule of host actions leaves the invariant. -/

namespace Sys2Proof.Machine

/-! ### `out` and `in` (R189, R190) -/

/-- Settles O20: `out` has one case, which the meaning writes out. -/
theorem outEmitsTheValue : Obligations.OutEmitsTheValue :=
  ⟨hasFormatF1V_of (fun _ => rfl) (fun _ => rfl), fun _ _ => rfl⟩

/-- The word of a code point is the code point mod 65536. -/
theorem ofNat_mod_word (c : Nat) : BitVec.ofNat 16 (c % 65536) = BitVec.ofNat 16 c := by
  simp [← BitVec.toNat_inj]

section Meanings

variable {s : State} (a : Reg) {c : Nat} {cs : List Nat}

theorem exec_inChar_of_cons_lt (hb : s.inBuf = c :: cs) (hc : c < 32768) :
    exec (.inChar a) s =
      .next ((State.setReg { s with inBuf := cs, inConsumed := s.inConsumed ++ [c] } a (BitVec.ofNat 16 c)).continueAt
        (s.pcAfter 2)) :=
  (exec_inChar_of_cons a hb).trans (congrArg Host.Outcome.next (State.storeReg_of_lt _ a 2 hc))

theorem exec_inChar_of_cons_le (hb : s.inBuf = c :: cs) (hc : 32768 ≤ c) :
    exec (.inChar a) s =
      .next (State.takeFault { s with inBuf := cs, inConsumed := s.inConsumed ++ [c] } .storedValueOutOfRange
        (BitVec.ofNat 16 (c % 65536))) := by
  rw [exec_inChar_of_cons a hb, State.storeReg_of_not_lt _ a 2 (not_lt.2 hc), ofNat_mod_word]

end Meanings

/-- Settles O21: by the answer of the port, and for a character by the range check, which comes after it is consumed. -/
theorem inReadsHoldsOrFaults : Obligations.InReadsHoldsOrFaults :=
  ⟨hasFormatF1D_of (fun _ => rfl) (fun _ => rfl),
    fun a _ => ⟨exec_inChar_of_pending a, exec_inChar_of_closed a, fun _ _ => exec_inChar_of_cons_le a,
      fun _ _ => exec_inChar_of_cons_lt a⟩⟩

/-! ### What the host may do to the input (R184, R186) -/

theorem wholeLine_iff {line : List Nat} :
    wholeLine line = true ↔ line.getLast? = some 10 ∧ 10 ∉ line.dropLast := decide_eq_true_iff

/-- A delivery is accepted only while the input is open, and only of a whole line. -/
theorem not_closed_and_wholeLine_of_deliverLine {line : List Nat} {s t : State} (h : deliverLine line s = .next t) :
    s.inClosed = false ∧ wholeLine line = true := by
  unfold deliverLine at h
  split at h
  · cases h
  · next hc =>
    split at h
    · next hl => exact ⟨Bool.eq_false_of_not_eq_true hc, hl⟩
    · cases h

theorem deliverLine_of_wholeLine {line : List Nat} {s : State} (hc : s.inClosed = false)
    (hl : wholeLine line = true) : deliverLine line s = .next { s with inBuf := s.inBuf ++ line } := by
  simp [deliverLine, hc, hl]

theorem closeInput_of_open {rest : List Nat} {s : State} (hc : s.inClosed = false) (hr : 10 ∉ rest) :
    closeInput rest s = .next { s with inBuf := s.inBuf ++ rest, inClosed := true } := by
  have hr' : newline ∉ rest := hr
  simp [closeInput, hc, hr']

/-- Settles O58: by what each action can do, and by the one case in which it is accepted. -/
theorem hostInputActions : Obligations.HostInputActions := by
  unfold Obligations.HostInputActions
  refine ⟨fun line s t h => ?_, fun line s hc hl => ?_, fun _ _ hc hr => closeInput_of_open hc hr,
    fun _ _ _ h => closeInput_cases h⟩
  · obtain ⟨hc, hl⟩ := not_closed_and_wholeLine_of_deliverLine h
    exact ⟨deliverLine_cases h, hc, wholeLine_iff.1 hl⟩
  · have hwhole : wholeLine (line ++ [10]) = true := wholeLine_iff.2 (by simpa using hl)
    rw [deliverLine_of_wholeLine hc hwhole, List.append_assoc]

/-! ### The invariant along every run (R186; spec/70_reset_and_hazards.md R240, R247) -/

theorem inv_construct {depth : Option Nat} (hd : ∀ d, depth = some d → 0 < d) : (State.construct depth).Inv :=
  { resetHasTheInvariant with
    depthPos := hd
    depthLe := fun _ _ => Nat.zero_le _
    recordEmpty := fun _ => ⟨rfl, rfl, rfl⟩
    recordSet := nofun }

/-- What a load can do, from IDLE only: fail with a named fault, or start the machine with an image that fits in
MEM_LEN words. -/
theorem load_cases {memLen : Option Nat} {st : LoadStream} {s t : State} (h : load memLen st s = .next t) :
    s.runState = .idle ∧
      ((∃ code, code ≠ FaultCode.none ∧ t = s.loadFault code st.bytes) ∨
        ∃ n, st.bytes.length ≤ 2 * n ∧ n ≤ 32768 ∧ t = s.loadOk st.bytes n) := by
  unfold load at h
  split at h
  · cases h
  next hidle =>
  refine ⟨not_not.1 hidle, ?_⟩
  split at h
  · cases h; exact .inl ⟨_, by decide, rfl⟩
  split at h
  · cases h; exact .inl ⟨_, by decide, rfl⟩
  next heven =>
  split at h
  · cases h; exact .inl ⟨_, by decide, rfl⟩
  next hsize =>
  rw [maxImageBytes] at hsize
  split at h
  · cases h; exact .inr ⟨_, by omega, by omega, rfl⟩
  · split at h
    · next hn => cases h; exact .inr ⟨_, by omega, hn.2, rfl⟩
    · cases h

namespace State.Inv

variable {s : State} (h : s.Inv)
include h

/-- A memory made of bytes that fit in MEM_LEN words keeps the invariant. -/
theorem setMemory {bytes : List Byte} {n : Nat} (hfit : bytes.length ≤ 2 * n) (hn : n ≤ 32768) :
    State.Inv { s with mem := Memory.ofBytes 0 bytes, cfg := { s.cfg with memLen := n } } :=
  { h with
    memWf := Memory.wf_ofBytes bytes 0
    memBelow := fun c hc => by
      obtain ⟨-, hlt⟩ := Memory.mem_ofBytes hc
      change c.1 < 2 * n
      omega
    memLenLe := hn }

theorem loadOk {bytes : List Byte} {n : Nat} (hfit : bytes.length ≤ 2 * n) (hn : n ≤ 32768) :
    (s.loadOk bytes n).Inv :=
  { h.setMemory hfit hn with
    recordEmpty := fun _ => ⟨rfl, rfl, rfl⟩
    recordSet := nofun }

/-- Whatever a failed load leaves in memory, at most the largest image of it is kept. -/
theorem loadFault {code : FaultCode} (hc : code ≠ .none) (bytes : List Byte) : (s.loadFault code bytes).Inv := by
  have hlen : ((Config.failedLoadImage bytes).take maxImageBytes).length ≤ 65536 := List.length_take_le _ _
  have hkept := h.setMemory (bytes := (Config.failedLoadImage bytes).take maxImageBytes)
    (n := (((Config.failedLoadImage bytes).take maxImageBytes).length + 1) / 2) (by omega) (by omega)
  exact { hkept with
    recordEmpty := fun hn => absurd rfl hn
    recordSet := fun _ => hc }

theorem withInput (buf : List Nat) (closed : Bool) : (s.withInput buf closed).Inv :=
  { h with }

/-- Every step and every action of the host keeps the invariant. -/
theorem move {t : State} (hm : Move s t) : t.Inv := by
  cases hm with
  | step hx => exact stepKeepsTheInvariant s t h hx
  | load memLen st hx =>
    obtain ⟨-, ⟨code, hc, rfl⟩ | ⟨n, hfit, hn, rfl⟩⟩ := load_cases hx
    · exact h.loadFault hc st.bytes
    · exact h.loadOk hfit hn
  | deliver line hx => exact deliverLine_cases hx ▸ h.withInput _ _
  | close rest hx => exact closeInput_cases hx ▸ h.withInput _ _

end State.Inv

/-- Settles O38: construction has the invariant and every move keeps it. -/
theorem reachableStatesHaveTheInvariant : Obligations.ReachableStatesHaveTheInvariant := by
  unfold Obligations.ReachableStatesHaveTheInvariant
  intro s hs
  induction hs with
  | construct depth hd => exact inv_construct hd
  | move _ hm ih => exact ih.move hm

end Sys2Proof.Machine

/-! PROOFS of the statements on the ends of a step and on the trace (spec/60_exceptions.md): what a fault leaves
unchanged, which faults an instruction raises, and the record a step emits. -/

namespace Sys2Proof.Machine

/-! ### What a fault leaves unchanged (R205; spec/45_io.md R190) -/

/-- The two ways an instruction faults: with only the fault record written, or with one character consumed before. -/
theorem Effect.cases_of_faulted {i : Instr} {s t : State} (he : Effect i s t) (hf : t.runState = .faulted) :
    (∃ c w, c ≠ FaultCode.none ∧ t = s.takeFault c w) ∨
    ∃ a c cs w, i = .inChar a ∧ s.inBuf = c :: cs ∧ 32768 ≤ c ∧
      t = State.takeFault { s with inBuf := cs, inConsumed := s.inConsumed ++ [c] } .storedValueOutOfRange w := by
  cases he with
  | fault c w hc => exact .inl ⟨c, w, hc, rfl⟩
  | badChar a c cs hi hb hc => exact .inr ⟨a, c, cs, _, hi, hb, not_lt.1 hc, rfl⟩
  | _ => cases hf

/-- The two ways a step faults: with only the fault record written, or in an `in` that has consumed one character. -/
theorem step_cases_of_faulted {s t : State} (hstep : step s = .next t) (hf : t.runState = .faulted) :
    (∃ c w, c ≠ FaultCode.none ∧ t = s.takeFault c w) ∨
    ∃ a c cs w, s.fetchDecode = .ok (.inChar a) ∧ s.inBuf = c :: cs ∧ 32768 ≤ c ∧
      t = State.takeFault { s with inBuf := cs, inConsumed := s.inConsumed ++ [c] } .storedValueOutOfRange w := by
  obtain ⟨-, ⟨i, hd, hx⟩ | ⟨e, -, rfl⟩⟩ := step_cases hstep
  · rcases (exec_effect hx).cases_of_faulted hf with hfault | ⟨a, c, cs, w, rfl, hchar⟩
    · exact .inl hfault
    · exact .inr ⟨a, c, cs, w, hd, hchar⟩
  · exact .inl (s.decodeFault_eq e)

/-- Settles O33, by the two ways a step faults: taking a fault writes the fault record and RUN_STATE only. -/
theorem faultsArePrecise : Obligations.FaultsArePrecise := by
  unfold Obligations.FaultsArePrecise
  intro s t hstep hf
  rcases step_cases_of_faulted hstep hf with ⟨c, w, hc, rfl⟩ | ⟨a, c, cs, w, hd, hb, hc, rfl⟩
  · exact ⟨hc, rfl, rfl, rfl, rfl, rfl, rfl, rfl, rfl, .inl ⟨rfl, rfl⟩⟩
  · exact ⟨nofun, rfl, rfl, rfl, rfl, rfl, rfl, rfl, rfl, .inr ⟨a, c, hd, hc, hb, rfl, rfl⟩⟩

/-! ### The faults of the table (R202) -/

/-- Every `raise` line of an instruction's rule has its fault in the table's row for the instruction. -/
theorem Raises.mem_executeFaults {s : State} {code : FaultCode} {word : Word} {i : Instr}
    (h : Raises s code word i) : code ∈ executeFaults i := by
  cases i with
  | push | mod | wmem =>
    obtain ⟨-, rfl, -⟩ := h
    exact .head _
  | rmem | call =>
    rcases h with ⟨-, rfl, -⟩ | ⟨-, -, rfl, -⟩
    · exact .head _
    · exact .tail _ (.head _)
  | inChar =>
    rcases h with ⟨-, -, rfl, -⟩ | ⟨c, cs, -, -, rfl, -⟩
    · exact .head _
    · exact .tail _ (.head _)
  | _ => cases h

/-- Settles O34: a fault is one of the rule's `raise` lines, and the other ends name their instruction. -/
theorem executeFaultsAreTheTables : Obligations.ExecuteFaultsAreTheTables := by
  unfold Obligations.ExecuteFaultsAreTheTables
  intro i s t h hwf hx
  refine ⟨fun hf => (h.raises hwf hx hf).mem_executeFaults, ?_⟩
  rcases (exec_effect hx).ends with
    hr | ⟨hi, rfl⟩ | ⟨hs, ⟨hi, rfl⟩ | ⟨a, hi, rfl⟩⟩ | ⟨hi, -, -, rfl⟩ | hf
  · simp [hr]
  · exact ⟨fun _ => hi, nofun, nofun⟩
  · exact ⟨nofun, fun _ => ⟨hs, .inl hi⟩, nofun⟩
  · exact ⟨nofun, fun _ => ⟨hs, .inr ⟨a, hi⟩⟩, nofun⟩
  · exact ⟨nofun, nofun, fun _ => hi⟩
  · simp [hf]

/-! ### When a step has a trace record (R224) -/

theorem RunState.traced_iff (r : RunState) :
    r.traced = true ↔ r ≠ .idle ∧ r ≠ .waitingInput ∧ r ≠ .faulted := by
  cases r <;> decide

theorem stepTrace_eq_some_iff {s : State} {r : TraceRecord} :
    stepTrace s = some r ↔ ∃ i t, s.fetchDecode = .ok i ∧ step s = .next t ∧ t.runState.traced = true ∧
      r = { pc := s.pc, mnemonic := mnemonicOf i, operands := s.traceOperands i, regs := t.regs } := by
  refine ⟨fun h => ?_, fun ⟨i, t, hd, hx, ht, hr⟩ => by simp [stepTrace, hd, hx, ht, hr]⟩
  unfold stepTrace at h
  split at h
  · next i t hd hx =>
    split at h <;> cases h
    next ht => exact ⟨i, t, hd, hx, ht, rfl⟩
  · cases h

/-- A step that neither faults nor holds has run an instruction, and its end is one that a record is emitted for. -/
theorem decoded_and_traced_of_step {s t : State} (hstep : step s = .next t) (hf : t.runState ≠ .faulted)
    (hw : t.runState ≠ .waitingInput) : ∃ i, s.fetchDecode = .ok i ∧ t.runState.traced = true := by
  obtain ⟨-, ⟨i, hd, hx⟩ | ⟨e, -, rfl⟩⟩ := step_cases hstep
  · refine ⟨i, hd, ?_⟩
    rcases (exec_effect hx).ends with
      hr | ⟨-, rfl⟩ | ⟨-, ⟨-, rfl⟩ | ⟨a, -, rfl⟩⟩ | ⟨-, -, -, rfl⟩ | hr
    · rw [hr]; rfl
    · rfl
    · rfl
    · rfl
    · exact absurd rfl hw
    · exact absurd hr hf
  · obtain ⟨c, w, -, heq⟩ := s.decodeFault_eq e
    exact absurd (by rw [heq]; rfl) hf

theorem exists_stepTrace_iff (s : State) :
    (∃ r, stepTrace s = some r) ↔
      ∃ t, step s = .next t ∧ t.runState ≠ .faulted ∧ t.runState ≠ .waitingInput := by
  simp only [stepTrace_eq_some_iff]
  constructor
  · rintro ⟨-, -, t, -, hx, ht, -⟩
    obtain ⟨-, hw, hf⟩ := t.runState.traced_iff.1 ht
    exact ⟨t, hx, hf, hw⟩
  · rintro ⟨t, hx, hf, hw⟩
    obtain ⟨i, hd, ht⟩ := decoded_and_traced_of_step hx hf hw
    exact ⟨_, i, t, hd, hx, ht, rfl⟩

/-! ### What a trace record holds (R224; spec/30_encoding.md R76, R80) -/

/-- Memory holds the words of a decoded instruction from pc on. -/
theorem State.memRead_of_fetchDecode {s : State} {i : Instr} (hd : s.fetchDecode = .ok i) {k : Nat}
    (hk : k < (encode i).length) : s.memRead (s.pc.toNat + k) = (encode i)[k] := by
  obtain ⟨rest, hw⟩ := State.fetchDecode_cases hd
  obtain ⟨-, hwords⟩ := decodeWords_cases hw
  have hread := s.fetchWindow_getElem? k
  rw [hwords, List.getElem?_append_left hk, List.getElem?_eq_getElem hk] at hread
  split at hread
  · exact (Option.some.inj hread).symm
  · cases hread

theorem mnemonicTable_opcode (i : Instr) : mnemonicTable[i.opcode.toNat]? = some (mnemonicOf i) := by
  cases i <;> rfl

/-- `o` shows the raw operand word `w`: a literal word as itself, a register reference with the register's value. -/
def TraceOperand.Shows (s : State) (w : Word) (o : TraceOperand) : Prop :=
  (w.toNat ≤ 32767 → o = .literal w) ∧
  (32768 ≤ w.toNat → ∃ x : Reg, x.val = w.toNat - 32768 ∧ o = .register x (s.reg x))

namespace State

variable (s : State)

theorem traceDst_shows (r : Reg) : (s.traceDst r).Shows s (Reg.encode r) := by
  have he := Reg.encode_toNat r
  exact ⟨fun _ => by omega, fun _ => ⟨r, by omega, rfl⟩⟩

theorem traceVal_shows {o : Operand} (ho : o.wf = true) : (s.traceVal o).Shows s o.encode := by
  cases o with
  | literal w =>
    have hw : w.toNat < 32768 := of_decide_eq_true ho
    exact ⟨fun _ => rfl, fun hle => absurd hw (not_lt.2 hle)⟩
  | register r => exact s.traceDst_shows r

/-- The trace shows the operand words one for one, in operand order. -/
theorem traceOperands_show {i : Instr} (hwf : WellFormed i) :
    List.Forall₂ (TraceOperand.Shows s) i.operandWords (s.traceOperands i) := by
  cases i with
  | halt | ret | noop => exact .nil
  | push a | jmp a | call a | out a => exact .cons (s.traceVal_shows hwf) .nil
  | pop a | inChar a => exact .cons (s.traceDst_shows a) .nil
  | set a b | not a b | rmem a b => exact .cons (s.traceDst_shows a) (.cons (s.traceVal_shows hwf) .nil)
  | jt a b | jf a b | wmem a b =>
    obtain ⟨ha, hb⟩ := Bool.and_eq_true_iff.1 hwf
    exact .cons (s.traceVal_shows ha) (.cons (s.traceVal_shows hb) .nil)
  | eq a b c | gt a b c | add a b c | mult a b c | mod a b c | and a b c | or a b c =>
    obtain ⟨hb, hc⟩ := Bool.and_eq_true_iff.1 hwf
    exact .cons (s.traceDst_shows a) (.cons (s.traceVal_shows hb) (.cons (s.traceVal_shows hc) .nil))

end State

/-- Settles O60: the record is of the decoded instruction, whose words memory holds and whose operands the trace shows
word for word. -/
theorem traceRecordsCompletedSteps : Obligations.TraceRecordsCompletedSteps := by
  unfold Obligations.TraceRecordsCompletedSteps
  refine fun s => ⟨exists_stepTrace_iff s, fun r hr => ?_⟩
  obtain ⟨i, t, hd, hx, -, rfl⟩ := stepTrace_eq_some_iff.1 hr
  obtain ⟨hwf, -⟩ := State.wf_and_fits_of_fetchDecode hd
  have hshow := s.traceOperands_show hwf
  have hop : s.memRead s.pc.toNat = i.opcode := State.memRead_of_fetchDecode hd (k := 0) (Nat.succ_pos _)
  refine ⟨i, t, hd, hx, rfl, fun k hk => State.memRead_of_fetchDecode hd hk, ?_, hshow.length_eq.symm,
    fun k hk => ?_, rfl⟩
  · rw [hop]
    exact mnemonicTable_opcode i
  · have hk' : k < (s.traceOperands i).length := hshow.length_eq ▸ hk
    rw [List.getElem?_eq_getElem hk']
    obtain ⟨hlit, hreg⟩ := hshow.get hk hk'
    refine ⟨fun h => congrArg some (hlit h), fun h => ?_⟩
    obtain ⟨x, hval, ho⟩ := hreg h
    exact ⟨x, hval, congrArg some ho⟩

end Sys2Proof.Machine

/-! PROOFS of the statements on the load (spec/70_reset_and_hazards.md): what a failed and a successful load leave, and
the first step on the empty image. -/

namespace Sys2Proof.Machine

/-! ### The outcome of a load from IDLE (R246, R247; spec/60_exceptions.md R203) -/

section Load

variable {memLen : Option Nat} {st : LoadStream} {s : State} (hidle : s.runState = .idle)
include hidle

theorem load_of_failing
    (hbad : st.readFailed = true ∨ st.bytes.length % 2 = 1 ∨ 65536 < st.bytes.length) :
    load memLen st s = .next (s.loadFault
      (if st.readFailed = true then .loadReadFailure
        else if st.bytes.length % 2 = 1 then .loadOddLength else .loadImageTooLarge) st.bytes) := by
  unfold load
  rw [if_neg (not_not.2 hidle)]
  by_cases hread : st.readFailed = true
  · rw [if_pos hread, if_pos hread]
  rw [if_neg hread, if_neg hread]
  by_cases hodd : st.bytes.length % 2 = 1
  · rw [if_pos hodd, if_pos hodd]
  rw [if_neg hodd, if_neg hodd, maxImageBytes, if_pos ((hbad.resolve_left hread).resolve_left hodd)]

theorem load_of_image (hread : st.readFailed = false) (heven : st.bytes.length % 2 = 0)
    (hsize : st.bytes.length ≤ 65536) (hlen : ∀ n, memLen = some n → st.bytes.length / 2 ≤ n ∧ n ≤ 32768) :
    load memLen st s = .next (s.loadOk st.bytes (memLen.getD (st.bytes.length / 2))) := by
  unfold load
  rw [if_neg (not_not.2 hidle), if_neg (by simp [hread]), if_neg (by omega), maxImageBytes, if_neg (by omega)]
  cases memLen with
  | none => rfl
  | some n => exact if_pos (hlen n rfl)

end Load

/-- Settles O56: the load takes the fault of the first failing check, and in FAULTED no step is enabled. -/
theorem failedLoadIsFaulted : Obligations.FailedLoadIsFaulted := by
  unfold Obligations.FailedLoadIsFaulted
  intro memLen st s hidle hbad
  refine ⟨_, load_of_failing hidle hbad, rfl, rfl, rfl, rfl, rfl, rfl, rfl, fun u hstep => ?_⟩
  exact State.not_faulted_of_enabled (step_cases hstep).1 rfl

/-! ### Memory after a successful load (R245) -/

theorem State.loadOk_memRead (s : State) (bytes : List Byte) (n k : Nat) :
    (s.loadOk bytes n).memRead k = wordOfBytes (bytes.getD (2 * k) 0) (bytes.getD (2 * k + 1) 0) := by
  have hbyte (j : Nat) : (Memory.ofBytes 0 bytes).readByte j = bytes.getD j 0 := by
    simpa [Memory.unlisted] using Memory.readByte_ofBytes bytes 0 j
  rw [← hbyte, ← hbyte]
  rfl

theorem State.loadOk_memRead_of_le (s : State) {bytes : List Byte} (n : Nat) {k : Nat}
    (hk : bytes.length ≤ 2 * k) : (s.loadOk bytes n).memRead k = 0 := by
  rw [s.loadOk_memRead, List.getD_eq_default _ _ hk, List.getD_eq_default _ _ (hk.trans (Nat.le_succ _))]
  decide

/-- Settles O55: construction left every other field zero or empty, and the load writes memory, the parameters and
RUN_STATE. -/
theorem loadGivesTheResetState : Obligations.LoadGivesTheResetState := by
  unfold Obligations.LoadGivesTheResetState
  intro depth memLen bytes heven hsize hlen
  refine ⟨_, load_of_image rfl rfl heven hsize hlen, rfl, fun k _ => ?_, fun k hk => ?_, State.reset_reg, rfl, rfl,
    rfl, rfl, rfl, rfl, rfl⟩
  · rw [State.loadOk_memRead, wordOfBytes_toNat]
  · have hend : bytes.length ≤ 2 * k := by omega
    exact State.loadOk_memRead_of_le _ _ hend

/-! ### The first step on the empty image (R248) -/

/-- A word of 0 at pc is `halt`. -/
theorem step_of_memRead_zero {s : State} (hen : s.enabled = true) (hpc : s.pc.toNat < s.cfg.memLen)
    (hw : s.memRead s.pc.toNat = 0) : step s = .next { s with runState := .halted, pc := s.pc + 1 } := by
  have hstep : step s = exec .halt s := stepRunsTheInstructionAtPc s .halt rfl hen fun k hk => by
    obtain rfl : k = 0 := Nat.lt_one_iff.1 hk
    exact ⟨hpc, hw⟩
  rw [hstep]
  exact haltStopsCleanly.2 s

/-- Settles O57: with MEM_LEN = 0 there is no word to fetch, else the word at 0 is above the image and reads as 0. -/
theorem emptyImageLoads : Obligations.EmptyImageLoads := by
  unfold Obligations.EmptyImageLoads
  refine ⟨fun depth => ?_, fun depth n hpos hle => ?_⟩
  · have hload := load_of_image (memLen := none) (st := ⟨[], false⟩) (s := State.construct depth) rfl rfl rfl
      (Nat.zero_le _) nofun
    exact ⟨_, hload, rfl, fetchBeyondMemoryFaults.1 _ rfl (Nat.zero_le _)⟩
  · have hload := load_of_image (memLen := some n) (st := ⟨[], false⟩) (s := State.construct depth) rfl rfl rfl
      (Nat.zero_le _) fun m hm => Option.some.inj hm ▸ ⟨Nat.zero_le _, hle⟩
    exact ⟨_, hload, step_of_memRead_zero rfl hpos (State.loadOk_memRead_of_le _ n (Nat.zero_le _))⟩

end Sys2Proof.Machine
